-- ==== Sys2Proof/Word.lean ====
section
/-! DEFINITION. The two unit types of the hardware: the byte of a VLQ stream and the 32-bit integer
(00_scope.md R5, R6). Bit 0 is the least significant bit. -/

namespace Sys2Proof

/-- One element of a byte sequence, `BYTE_BITS` = 8 (R5); bit 7 is the continuation flag (R70). -/
abbrev Byte := BitVec 8

/-- One integer of the codec, `VALUE_BITS` = 32, unsigned (R4, R5). -/
abbrev Word := BitVec 32

end Sys2Proof
end

