-- ==== Sys2Proof/Config.lean ====
section
/-! DEFINITION. The parameters of the hardware (00_scope.md R5): those the source fixes, as constants, and those
it leaves open, as the fields of `Config`. -/

namespace Sys2Proof

/-- `MAX_VALUE`, the largest integer the codec carries (R5). -/
abbrev maxValue : Nat := 0xFFFFFFFF

/-- `GROUP_MASK`, the mask of the value group (R5). -/
abbrev groupMask : Nat := 0x7F

/-- `CONT_MASK`, the mask of the continuation flag (R5). -/
abbrev contMask : Nat := 0x80

/-- `GROUP_BITS`, the width of a value group (R5). -/
abbrev groupBits : Nat := 7

/-- `OVF_LIMIT`, the constant of the decoder's overflow check (R5, R125). -/
abbrev ovfLimit : Nat := 32

/-- The least `W_IN` that can carry 2³² (R5, D4). -/
abbrev minDataBits : Nat := 33

/-- `MSB_LATCH`: which bytes latch `dec_msb` (R5, R124; 90_conflicts.md C1). -/
inductive MsbLatch where
  /-- `FIRST_GROUP`, the normative value: the byte that finds `dec_off = 0`. -/
  | firstGroup
  /-- `ACC_ZERO`, the documented other reading: every byte that finds `dec_acc = 0`. -/
  | accZero
deriving DecidableEq, Repr

/-- The open parameters of R5. A capacity is a natural number or unbounded (`none`). -/
structure Config where
  /-- `W_IN`, the width in bits of the encoder's data input. -/
  wIn : Nat
  /-- `ENC_CAP`, in bytes. -/
  encCap : Option Nat
  /-- `DEC_CAP`, in 32-bit words. -/
  decCap : Option Nat
  /-- `MSB_LATCH`. -/
  msbLatch : MsbLatch
deriving DecidableEq, Repr

/-- R5 admits any `W_IN` of at least 33. -/
def Config.wf (c : Config) : Bool := minDataBits ≤ c.wIn

/-- The parameters the spec's own examples use: `W_IN` = 33, unbounded capacities, `FIRST_GROUP`
(95_test_vectors.md, Notation). DESIGN CHOICE for the open three (log entry 2). -/
def Config.normative : Config where
  wIn := minDataBits
  encCap := none
  decCap := none
  msbLatch := .firstGroup

end Sys2Proof
end

