-- ==== Sys2Proof/Syntax.lean ====
section
/-! DEFINITION. The operations of the two command ports, one constructor per row of spec/opcode_table.json
(30_encoding.md R80, R83). -/

namespace Sys2Proof

/-- The two functional blocks (00_scope.md R2). Each has a command port of its own. -/
inductive Block where
  | enc
  | dec
deriving DecidableEq, Repr

/-- The four operations a 2-bit `cmd_op` selects, the same in both blocks (R80). -/
inductive Op where
  | nop
  | push
  | finish
  | clear
deriving DecidableEq, Repr

/-- An operation at a command port. `NOP`, `END` and `CLR` have no operand: their data field is ignored (R82). -/
inductive Instr where
  /-- `ENC.NOP` (R103). -/
  | encNop
  /-- `ENC.PUSH v` (R104); `v` is unsigned, below 2^`W_IN`. -/
  | encPush (v : Nat)
  /-- `ENC.END` (R105). -/
  | encEnd
  /-- `ENC.CLR` (R106). -/
  | encClr
  /-- `DEC.NOP` (R121). -/
  | decNop
  /-- `DEC.PUSH b` (R122); every byte is legal (R76). -/
  | decPush (b : Byte)
  /-- `DEC.END` (R128). -/
  | decEnd
  /-- `DEC.CLR` (R129). -/
  | decClr
deriving DecidableEq, Repr

/-- The block whose command port carries the operation. -/
def Instr.block : Instr → Block
  | .encNop => .enc
  | .encPush _ => .enc
  | .encEnd => .enc
  | .encClr => .enc
  | .decNop => .dec
  | .decPush _ => .dec
  | .decEnd => .dec
  | .decClr => .dec

/-- Which of the four operations it is. -/
def Instr.op : Instr → Op
  | .encNop => .nop
  | .encPush _ => .push
  | .encEnd => .finish
  | .encClr => .clear
  | .decNop => .nop
  | .decPush _ => .push
  | .decEnd => .finish
  | .decClr => .clear

end Sys2Proof
end

