-- ==== Sys2Proof/WellFormed.lean ====
section
/-! DEFINITION. Which operations a command port can carry. -/

namespace Sys2Proof

/-- The operand fits the data field: `ENC.PUSH v` has `v < 2^W_IN` (R77, R104); a `DEC.PUSH` operand is a byte
by its type, and the other operations have none. -/
def Instr.wellFormed (cfg : Config) : Instr → Bool
  | .encNop => true
  | .encPush v => v < 2 ^ cfg.wIn
  | .encEnd => true
  | .encClr => true
  | .decNop => true
  | .decPush _ => true
  | .decEnd => true
  | .decClr => true

end Sys2Proof
end

