-- ==== Sys2Proof/Decode.lean ====
section
/-! DEFINITION. Command words: the decoder of each port, and the encoder (30_encoding.md R77 to R82).

The unit is the whole command word of a port, `W_IN + 2` bits at `ENC` and 10 bits at `DEC`, held as the natural
number it reads as with bit 0 least significant (R6). The hardware stores no command word, so no byte order of one
exists (R50, R62). -/

namespace Sys2Proof

/-- Why a number is no command word. -/
inductive DecodeError where
  /-- It has more bits than the port: it cannot be presented there (R77, R78; log entry 5). -/
  | wordTooWide
deriving DecidableEq, Repr

/-- Width of the `cmd_data` field of a block's port: `W_IN` at `ENC` (R77), 8 at `DEC` (R78). -/
def dataBits (cfg : Config) : Block → Nat
  | .enc => cfg.wIn
  | .dec => 8

/-- Width of a block's command word: the data field and two bits of `cmd_op` above it (R77, R78). -/
def wordBits (cfg : Config) (b : Block) : Nat := dataBits cfg b + 2

/-- The code of an operation in `cmd_op` (the table of R80). -/
def Op.code : Op → Nat
  | .nop => 0b00
  | .push => 0b01
  | .finish => 0b10
  | .clear => 0b11

/-- The table of R80 read the other way. All four codes of the two bits are assigned (R81); a larger number is
no value of the field. -/
def Op.ofCode : Nat → Option Op
  | 0b00 => some .nop
  | 0b01 => some .push
  | 0b10 => some .finish
  | 0b11 => some .clear
  | _ => none

/-- The operation a block's port carries for a code and a data field; only `PUSH` uses the data (R82). -/
def Instr.ofFields (data : Nat) : Block → Op → Instr
  | .enc, .nop => .encNop
  | .enc, .push => .encPush data
  | .enc, .finish => .encEnd
  | .enc, .clear => .encClr
  | .dec, .nop => .decNop
  | .dec, .push => .decPush (BitVec.ofNat 8 data)
  | .dec, .finish => .decEnd
  | .dec, .clear => .decClr

/-- Decode the number `w` presented at a block's port: `cmd_op` is the bits from `dataBits` up, `cmd_data` the bits
below (R77, R78). Total; the only rejection is a number too wide for the port. -/
def decode (cfg : Config) (b : Block) (w : Nat) : Except DecodeError Instr :=
  match Op.ofCode (w >>> dataBits cfg b) with
  | some op => .ok (Instr.ofFields (w % 2 ^ dataBits cfg b) b op)
  | none => .error .wordTooWide

/-- The data field of an operation: the operand of `PUSH`; all zero for the others (R82, R83). -/
def Instr.data : Instr → Nat
  | .encNop => 0
  | .encPush v => v
  | .encEnd => 0
  | .encClr => 0
  | .decNop => 0
  | .decPush b => b.toNat
  | .decEnd => 0
  | .decClr => 0

/-- The command word of a well-formed operation: `(cmd_op << dataBits) | cmd_data` (R80). -/
def encode (cfg : Config) (i : Instr) : Nat :=
  (i.op.code <<< dataBits cfg i.block) ||| i.data

/-- Which port a row of spec/opcode_table.json belongs to, by how many bits its word has in whole bytes:
10 bits (2 bytes) at `DEC`, 35 bits (5 bytes, `W_IN` = 33) at `ENC` (log entry 4). -/
def tablePort (nbits : Nat) : Block := if nbits ≤ 16 then .dec else .enc

/-- What the decoder reads from a word of spec/opcode_table.json, whose `ENC` rows are for `W_IN` = 33. -/
def decodeTableWord (nbits w : Nat) : Option Instr :=
  (decode Config.normative (tablePort nbits) w).toOption

/-- A word of spec/opcode_table.json as the port of a core with parameters `cfg` takes it: the same code and data,
the code moved up to bit `W_IN` of that core (R77). It is `w` itself where `W_IN` = 33, and at `DEC`. -/
def tableWordFor (cfg : Config) (b : Block) (w : Nat) : Nat :=
  ((w >>> dataBits Config.normative b) <<< dataBits cfg b) ||| (w % 2 ^ dataBits Config.normative b)

end Sys2Proof
end

