-- ==== Sys2Proof/Machine/State.lean ====
section
/-! DEFINITION. The state of the core: the ten registers and buffers of 10_state.md R20, the parameters it was
built with, and the signals the host is about to present. Plain data. -/

namespace Sys2Proof.Machine

/-- The phase of a block's call (R24). Two bits in the hardware, of which the value 3 never occurs (93 U9). -/
inductive Phase where
  /-- `OPEN` (0): a call is open. -/
  | opened
  /-- `DONE` (1): the call ended with `END` and no error. -/
  | done
  /-- `ERR` (2): the call ended with an error. -/
  | err
deriving DecidableEq, Repr

/-- The content of an `err` register (R25, R184). -/
inductive ErrKind where
  /-- `NONE` (0). -/
  | none
  /-- `ARGUMENT` (1), the source's ArgumentError (R181). -/
  | argument
  /-- `OVERFLOW` (2), the source's OverflowError (R182). -/
  | overflow
  /-- `INCOMPLETE` (3), the source's IncompleteNumberError (R183). -/
  | incomplete
deriving DecidableEq, Repr

/-- The registers of block `ENC` (R20). -/
structure Enc where
  /-- `enc_phase` (R24). -/
  phase : Phase
  /-- `enc_err` (R25). -/
  err : ErrKind
  /-- `enc_obuf`, the result space `ENC.OBUF`, index 0 first (R26, R51). -/
  obuf : List Byte
deriving DecidableEq, Repr

/-- The registers of block `DEC` (R20). -/
structure Dec where
  /-- `dec_phase` (R24). -/
  phase : Phase
  /-- `dec_err` (R25). -/
  err : ErrKind
  /-- `dec_seen`: a `PUSH` was accepted in this call (R28). -/
  seen : Bool
  /-- `dec_acc`, the source's `current_number` (R30). -/
  acc : Word
  /-- `dec_off`, the source's `current_offset`: 7 times the groups consumed (R31). -/
  off : BitVec 6
  /-- `dec_msb`, the source's `msb_size` (R32). -/
  msb : BitVec 3
  /-- `dec_rbuf`, the result space `DEC.RBUF`, index 0 first (R27, R52). -/
  rbuf : List Word
deriving DecidableEq, Repr

/-- The input signals of one clock cycle (92 D2; 30_encoding.md R77 to R79): `rst`, and for each block a command
word (as the number it reads as) and a read index. -/
structure Cycle where
  /-- `rst`, active high (R200). -/
  rst : Bool
  /-- The `ENC-CMD` word (R77). -/
  encWord : Nat
  /-- `rd_idx` of `ENC` (R54), of the width of `len` (R51). -/
  encRdIdx : Nat
  /-- The `DEC-CMD` word (R78). -/
  decWord : Nat
  /-- `rd_idx` of `DEC` (R55), of the width of `len` (log entry 11). -/
  decRdIdx : Nat
deriving DecidableEq, Repr

/-- A cycle in which the host has nothing to present: every signal 0, which is `NOP` at both ports (R103, R121,
R195). -/
def Cycle.idle : Cycle where
  rst := false
  encWord := 0
  encRdIdx := 0
  decWord := 0
  decRdIdx := 0

/-- The state of the model. `enc` and `dec` are the hardware's whole state (R20); `cfg` and `pending` are the
model's (log entries 1 and 2). -/
structure State where
  /-- The parameters of R5; no step changes them. -/
  cfg : Config
  /-- Block `ENC`. -/
  enc : Enc
  /-- Block `DEC`. -/
  dec : Dec
  /-- The signals of the coming cycles, the present one first; after the last the host is idle. -/
  pending : List Cycle
deriving DecidableEq, Repr

/-- Why the machine stops with a fault. The spec gives it no fault: its error kinds are effects of operations
(60_exceptions.md R186), after which the machine goes on. -/
inductive Fault where
  /-- Raised by `step` when the number in `pending` for a block's port has more bits than that port, which no host
  can present (R77, R78). Safe: the hardware has no such step. -/
  | wordTooWide (b : Block)
  /-- Raised by `step` when the number in `pending` for a block's read index has more bits than its `len` output, which
  no host can present (R29, R51; log entry 11). Safe: the hardware has no such step. -/
  | indexTooWide (b : Block)
deriving DecidableEq, Repr

/-- Why a step is refused. -/
inductive Refusal where
  /-- Raised by `exec` for an operation without a meaning yet. Safe. No arm of `exec` uses it. -/
  | notModelled (mnemonic : String)
  /-- Raised by `ENC.PUSH` and `DEC.PUSH` where the result would exceed the block's capacity: the `refuse` of R104,
  R122 and R209, to which the spec gives no meaning. Safe: the step has no successor. -/
  | overCapacity (b : Block)
deriving DecidableEq, Repr

/-- What an operation answers. -/
abbrev Result := Host.Outcome State Fault Refusal

/-- `ENC` after reset and after `ENC.CLR` (R34). -/
def Enc.reset : Enc where
  phase := .opened
  err := .none
  obuf := []

/-- `DEC` after reset and after `DEC.CLR` (R34). -/
def Dec.reset : Dec where
  phase := .opened
  err := .none
  seen := false
  acc := 0
  off := 0
  msb := 0
  rbuf := []

/-- The machine after reset (R34, R200), with the parameters of the spec's examples and nothing presented. -/
def State.reset : State where
  cfg := Config.normative
  enc := Enc.reset
  dec := Dec.reset
  pending := []

end Sys2Proof.Machine
end

