-- ==== Sys2Proof/Machine/Operands.lean ====
section
/-! DEFINITION. The fields of a VLQ byte, the bit-group extractor, the bit length, and one encoded number
(30_encoding.md R70; 40_extractor.md; 41_encoder.md R101). -/

namespace Sys2Proof.Machine

/-- `EXTRACT7(a)`: the low seven bits, and the rest shifted down by seven (R90). -/
def extract7 (a : Nat) : Nat × Nat := (a &&& groupMask, a >>> groupBits)

/-- `BITLEN(v)`: 0 for 0, else ⌊log2 v⌋ + 1 (R92). -/
def bitLen (v : Nat) : Nat := if v = 0 then 0 else Nat.log2 v + 1

/-- The value group `G` of a VLQ byte, `byte[6:0]` (R70, R123): the first half of `EXTRACT7` of the byte. -/
def group (b : Byte) : Nat := (extract7 b.toNat).1

/-- The continuation flag `C` of a VLQ byte, `byte[7]` (R70, R123). -/
def contFlag (b : Byte) : Bool := b.getLsbD 7

/-- The terminal byte of a number: `C` = 0, `G` = `g` (R101 step 1). -/
def termByte (g : Nat) : Byte := BitVec.ofNat 8 g

/-- A byte that is not the last of its number: `C` = 1, `G` = `g` (R101 step 2). -/
def contByte (g : Nat) : Byte := BitVec.ofNat 8 (g ||| contMask)

/-- The loop of R101 step 2, at most `fuel` times round: while bits remain, extract a group and prepend its byte. -/
def encodeLoop : Nat → Nat → List Byte → List Byte
  | 0, _, w => w
  | fuel + 1, r, w =>
    if r = 0 then w
    else encodeLoop fuel (extract7 r).2 (contByte (extract7 r).1 :: w)

/-- `EncodeOne(v)` for `v ≤ 2³² − 1`: the bytes of one number, most significant group first. The loop runs at most
four times (R101, R211; log entry 8). -/
def encodeOne (v : Nat) : List Byte :=
  encodeLoop 4 (extract7 v).2 [termByte (extract7 v).1]

end Sys2Proof.Machine
end

