-- ==== Sys2Proof/Machine/Flags.lean ====
section
/-! DEFINITION. The tests the operations make and the codes of the status registers. -/

namespace Sys2Proof.Machine

/-- The code of `phase` (R24). -/
def Phase.code : Phase → BitVec 2
  | .opened => 0
  | .done => 1
  | .err => 2

/-- The code of `err` (R25, R184). -/
def ErrKind.code : ErrKind → BitVec 2
  | .none => 0
  | .argument => 1
  | .overflow => 2
  | .incomplete => 3

/-- The encoder's range check: `v > 0xFFFFFFFF` (R104). -/
def outOfRange (v : Nat) : Bool := maxValue < v

/-- A result of `n` elements fits a buffer of the given capacity (R209). -/
def fits : Option Nat → Nat → Bool
  | none, _ => true
  | some cap, n => n ≤ cap

/-- Whether the byte being processed latches `dec_msb`: the marked line of R122, for both values of `MSB_LATCH`
(R124). -/
def latches : MsbLatch → Dec → Bool
  | .firstGroup, d => d.off = 0
  | .accZero, d => d.acc = 0

/-- `msb'`, the value of `dec_msb` after step 2 for a byte with value group `value` (R124). -/
def latchedMsb (latch : MsbLatch) (d : Dec) (value : Nat) : BitVec 3 :=
  if latches latch d then BitVec.ofNat 3 (bitLen value) else d.msb

/-- The overflow check of step 3: `dec_off + msb' > 32`, a sum of exactly 32 passing (R125; log entry 9). -/
def overflows (off : BitVec 6) (msb : BitVec 3) : Bool := ovfLimit < off.toNat + msb.toNat

/-- `acc' = (dec_acc << 7) | value` of step 4, on the 32-bit register (R126). -/
def accumulate (acc : Word) (value : Nat) : Word := (acc <<< groupBits) ||| BitVec.ofNat 32 value

end Sys2Proof.Machine
end

