-- ==== Sys2Proof/Machine/Ops.lean ====
section
/-! DEFINITION. The operations every meaning is written over: error entry and the return from it, appending to a
result space, the read ports and status outputs, and taking the presented signals. -/

namespace Sys2Proof.Machine

/-- Go on with `f` where `o` answers a next state; stop where it stops. -/
def andThen (o : Result) (f : State → Result) : Result :=
  match o with
  | .next s => f s
  | .fault r => .fault r
  | .refused r => .refused r

/-- The `phase` register of a block. -/
def State.phase (s : State) : Block → Phase
  | .enc => s.enc.phase
  | .dec => s.dec.phase

/-- The `err` register of a block. -/
def State.err (s : State) : Block → ErrKind
  | .enc => s.enc.err
  | .dec => s.dec.err

/-! ### Error entry and return -/

/-- Error entry, `raise kind` in block `b` (60_exceptions.md R186): `phase` becomes `ERR`, `err` the kind, the block's
result buffer is emptied, and every other register keeps the value it has when the error is raised. -/
def raise (b : Block) (kind : ErrKind) (s : State) : State :=
  match b with
  | .enc => { s with enc := { s.enc with phase := .err, err := kind, obuf := [] } }
  | .dec => { s with dec := { s.dec with phase := .err, err := kind, rbuf := [] } }

/-- The return from an error, and the start of a call: block `b` takes the state of R34 (R106, R129, R188). -/
def clear (b : Block) (s : State) : State :=
  match b with
  | .enc => { s with enc := Enc.reset }
  | .dec => { s with dec := Dec.reset }

/-- `rst` = 1: both blocks take the state of R34 (70_reset_and_hazards.md R200). -/
def resetBlocks (s : State) : State := clear .dec (clear .enc s)

/-- Run `act` in phase `OPEN`; in phases `DONE` and `ERR` the operation is accepted and discarded (R188). -/
def whenOpen (b : Block) (act : State → Result) (s : State) : Result :=
  if s.phase b = .opened then act s else .next s

/-- A successful `END`: `phase` becomes `DONE`, and the result becomes host-visible (R105, R128). -/
def deliver (b : Block) (s : State) : State :=
  match b with
  | .enc => { s with enc := { s.enc with phase := .done } }
  | .dec => { s with dec := { s.dec with phase := .done } }

/-! ### The result spaces (20_memory.md) -/

/-- `Append` the bytes of one number to `ENC.OBUF`, or refuse where they do not fit (R53, R104, R209). -/
def appendBytes (bytes : List Byte) (s : State) : Result :=
  if fits s.cfg.encCap (s.enc.obuf.length + bytes.length) then
    .next { s with enc := { s.enc with obuf := s.enc.obuf ++ bytes } }
  else .refused (.overCapacity .enc)

/-- `Append` one word to `DEC.RBUF`, or refuse where it does not fit (R53, R122, R209). -/
def appendWord (w : Word) (s : State) : Result :=
  if fits s.cfg.decCap (s.dec.rbuf.length + 1) then
    .next { s with dec := { s.dec with rbuf := s.dec.rbuf ++ [w] } }
  else .refused (.overCapacity .dec)

/-- What a read port answers: `rd_valid` and `rd_data`. -/
structure ReadAnswer (width : Nat) where
  valid : Bool
  data : BitVec width
deriving DecidableEq, Repr

/-- Element `i` of a result space as a read port delivers it: valid in phase `DONE` below the length, else
`rd_valid` = 0 and `rd_data` = 0 (R54, R55). -/
def readPort (width : Nat) (p : Phase) (buf : List (BitVec width)) (i : Nat) : ReadAnswer width :=
  match p, buf[i]? with
  | .done, some x => { valid := true, data := x }
  | _, _ => { valid := false, data := 0 }

/-- `MemRead(ENC.OBUF, i, 1)` (R54). -/
def State.encRead (s : State) (i : Nat) : ReadAnswer 8 := readPort 8 s.enc.phase s.enc.obuf i

/-- `MemRead(DEC.RBUF, i, 1)` (R55). -/
def State.decRead (s : State) (i : Nat) : ReadAnswer 32 := readPort 32 s.dec.phase s.dec.rbuf i

/-! ### Outputs (R29, R79) -/

/-- The outputs of a block: status, and the answer of its read port. -/
structure Outputs (width : Nat) where
  /-- `phase[1:0]`. -/
  phase : BitVec 2
  /-- `err[1:0]`. -/
  err : BitVec 2
  /-- `len`. -/
  len : Nat
  /-- `rd_valid` and `rd_data`. -/
  rd : ReadAnswer width
deriving DecidableEq, Repr

/-- The `len` output: the length of the result in phase `DONE`, 0 in every other phase (R29). -/
def lenOutput (p : Phase) (n : Nat) : Nat :=
  match p with
  | .done => n
  | .opened => 0
  | .err => 0

/-- The width of `len` and of `rd_idx`: the bits needed to hold the capacity; none stated where it is unbounded
(R29, R51). -/
def lenBits (cap : Option Nat) : Option Nat := cap.map bitLen

/-- A number has the width of `len`, which is the width of a read index: any natural number where the capacity is
unbounded (R29, R51). -/
def fitsLen (cap : Option Nat) (i : Nat) : Bool :=
  match lenBits cap with
  | none => true
  | some w => i < 2 ^ w

/-- The signals of the present cycle; idle after the last one (log entry 1). -/
def State.cycle (s : State) : Cycle := s.pending.headD Cycle.idle

/-- The outputs of `ENC` for the read index presented in this cycle (R29, R54). -/
def State.encOutputs (s : State) : Outputs 8 where
  phase := s.enc.phase.code
  err := s.enc.err.code
  len := lenOutput s.enc.phase s.enc.obuf.length
  rd := s.encRead s.cycle.encRdIdx

/-- The outputs of `DEC` for the read index presented in this cycle (R29, R55). -/
def State.decOutputs (s : State) : Outputs 32 where
  phase := s.dec.phase.code
  err := s.dec.err.code
  len := lenOutput s.dec.phase s.dec.rbuf.length
  rd := s.decRead s.cycle.decRdIdx

/-! ### Taking the presented operations (the fetch of this hardware, R21) -/

/-- The state once the signals of the present cycle are taken. -/
def State.advance (s : State) : State := { s with pending := s.pending.tail }

/-- The operation presented at a block's port in this cycle. -/
def presented (b : Block) (s : State) : Except DecodeError Instr :=
  match b with
  | .enc => decode s.cfg .enc s.cycle.encWord
  | .dec => decode s.cfg .dec s.cycle.decWord

/-- The block whose presented read index is no index of its read port, if there is one (R51; log entry 11). -/
def wideIndex (s : State) : Option Block :=
  if fitsLen s.cfg.encCap s.cycle.encRdIdx = false then some .enc
  else if fitsLen s.cfg.decCap s.cycle.decRdIdx = false then some .dec
  else none

/-- Run the operation presented at block `b`'s port; a number too wide for the port is no operation. -/
def runPresented (run : Instr → State → Result) (b : Block) (op : Except DecodeError Instr) (s : State) : Result :=
  match op with
  | .ok i => run i s
  | .error .wordTooWide => .fault (.wordTooWide b)

/-- One clock cycle (R200, R210; log entry 3): `rst` wins; else each block takes the operation at its port. Reading
changes no state (R63), so of the read indices only the width matters. -/
def runCycle (run : Instr → State → Result) (s : State) : Result :=
  if s.cycle.rst then .next (resetBlocks s.advance)
  else
    match wideIndex s with
    | some b => .fault (.indexTooWide b)
    | none =>
      andThen (runPresented run .enc (presented .enc s) s.advance) fun t =>
        runPresented run .dec (presented .dec s) t

/-- The signals that present a word of spec/opcode_table.json at block `b`'s port, `NOP` at the other. -/
def tableCycle (cfg : Config) (b : Block) (w : Nat) : Cycle :=
  match b with
  | .enc => { Cycle.idle with encWord := tableWordFor cfg .enc w }
  | .dec => { Cycle.idle with decWord := tableWordFor cfg .dec w }

end Sys2Proof.Machine
end

