-- ==== Sys2Proof/Machine/Decoder.lean ====
section
/-! DEFINITION. The operations of block `DEC` (42_decoder.md). -/

namespace Sys2Proof.Machine

/-- `DEC.NOP` (R121). -/
def execDecNop (s : State) : Result := .next s

/-- What `DEC.PUSH` writes before the overflow check: `dec_seen` and `dec_msb` (R122, steps 1 and 2). -/
def latchGroup (b : Byte) (s : State) : State :=
  { s with dec := { s.dec with seen := true, msb := latchedMsb s.cfg.msbLatch s.dec (group b) } }

/-- Step 5 with the continuation flag set: the number goes on (R127). -/
def continueNumber (acc : Word) (s : State) : State :=
  { s with dec := { s.dec with acc := acc, off := s.dec.off + 7 } }

/-- Step 5 with the continuation flag clear: the number is complete (R127). -/
def completeNumber (acc : Word) (s : State) : Result :=
  appendWord acc { s with dec := { s.dec with acc := 0, off := 0 } }

/-- `DEC.PUSH b` (R122 to R127). -/
def execDecPush (b : Byte) (s : State) : Result :=
  whenOpen .dec (fun s =>
    let s' := latchGroup b s
    if overflows s'.dec.off s'.dec.msb then .next (raise .dec .overflow s')
    else
      let acc := accumulate s'.dec.acc (group b)
      if contFlag b then .next (continueNumber acc s') else completeNumber acc s') s

/-- `DEC.END` (R128). -/
def execDecEnd (s : State) : Result :=
  whenOpen .dec (fun s =>
    if s.dec.seen = false then .next (raise .dec .argument s)
    else if s.dec.off ≠ 0 then .next (raise .dec .incomplete s)
    else .next (deliver .dec s)) s

/-- `DEC.CLR` (R129). -/
def execDecClr (s : State) : Result := .next (clear .dec s)

end Sys2Proof.Machine
end

