-- ==== Sys2Proof/Machine/Encoder.lean ====
section
/-! DEFINITION. The operations of block `ENC` (41_encoder.md). -/

namespace Sys2Proof.Machine

/-- `ENC.NOP` (R103). -/
def execEncNop (s : State) : Result := .next s

/-- `ENC.PUSH v` (R104): the range check first, then the capacity, then the bytes of `v` are appended. -/
def execEncPush (v : Nat) (s : State) : Result :=
  whenOpen .enc (fun s =>
    if outOfRange v then .next (raise .enc .argument s)
    else appendBytes (encodeOne v) s) s

/-- `ENC.END` (R105); it never raises. -/
def execEncEnd (s : State) : Result :=
  whenOpen .enc (fun s => .next (deliver .enc s)) s

/-- `ENC.CLR` (R106). -/
def execEncClr (s : State) : Result := .next (clear .enc s)

end Sys2Proof.Machine
end

