-- ==== Sys2Proof/Machine/Dispatch.lean ====
section
/-! DEFINITION. One arm per operation. -/

namespace Sys2Proof.Machine

def exec (i : Instr) (s : State) : Host.Outcome State Fault Refusal :=
  match i with
  | .encNop => Sys2Proof.Machine.execEncNop s
  | .encPush v => Sys2Proof.Machine.execEncPush v s
  | .encEnd => Sys2Proof.Machine.execEncEnd s
  | .encClr => Sys2Proof.Machine.execEncClr s
  | .decNop => Sys2Proof.Machine.execDecNop s
  | .decPush b => Sys2Proof.Machine.execDecPush b s
  | .decEnd => Sys2Proof.Machine.execDecEnd s
  | .decClr => Sys2Proof.Machine.execDecClr s

end Sys2Proof.Machine
end

