-- ==== Sys2Proof/Machine/Step.lean ====
section
/-! DEFINITION. One step is one clock cycle of the core. -/

namespace Sys2Proof.Machine

/-- One clock cycle: reset, or the operation presented at each block's port (R200, R210). -/
def step (s : State) : Host.Outcome State Fault Refusal := runCycle exec s

/-- `s` with a word of spec/opcode_table.json presented in the very next cycle, at the port the row belongs to, and
`NOP` at the other port (log entries 1 and 4). -/
def State.withFetchWord (s : State) (nbits w : Nat) : State :=
  { s with pending := tableCycle s.cfg (tablePort nbits) w :: s.pending }

end Sys2Proof.Machine
end

