-- ==== Sys2Proof/Machine/Calls.lean ====
section
/-! DEFINITION. Whole calls (43_calls.md): the two functions of the source over whole sequences, and the operation
sequences that carry them out. -/

namespace Sys2Proof.Machine

/-- The outcome of a call (R150, R153). -/
inductive CallResult (α : Type) where
  | pending
  | ok (result : α)
  | err (kind : ErrKind)
deriving DecidableEq, Repr

/-- `EncResult` (R150). -/
def encResult (s : State) : CallResult (List Byte) :=
  match s.enc.phase with
  | .opened => .pending
  | .done => .ok s.enc.obuf
  | .err => .err s.enc.err

/-- `DecResult` (R153). -/
def decResult (s : State) : CallResult (List Word) :=
  match s.dec.phase with
  | .opened => .pending
  | .done => .ok s.dec.rbuf
  | .err => .err s.dec.err

/-- The pseudo-operation `ENCODE xs` (R84, R150). -/
def encodeCall (xs : List Nat) : List Instr := .encClr :: (xs.map .encPush ++ [.encEnd])

/-- The pseudo-operation `DECODE bs` (R84, R153). -/
def decodeCall (bs : List Byte) : List Instr := .decClr :: (bs.map .decPush ++ [.decEnd])

/-- The operations of a list, one after the other. -/
def runOps : List Instr → State → Result
  | [], s => .next s
  | i :: ops, s => andThen (exec i s) (runOps ops)

/-- The signals that present one operation at its block's port, and `NOP` at the other's. -/
def presentOp (cfg : Config) (i : Instr) : Cycle :=
  match i.block with
  | .enc => { Cycle.idle with encWord := encode cfg i }
  | .dec => { Cycle.idle with decWord := encode cfg i }

/-- The function `encode` (R151). -/
def encodeSeq (xs : List Nat) : CallResult (List Byte) :=
  if xs.any outOfRange then .err .argument else .ok (xs.flatMap encodeOne)

/-- `msb` after step 2 for a byte with value group `value`, on naturals (R154), for both values of `MSB_LATCH`
(R124). -/
def msbAfter (latch : MsbLatch) (acc off msb value : Nat) : Nat :=
  match latch with
  | .firstGroup => if off = 0 then bitLen value else msb
  | .accZero => if acc = 0 then bitLen value else msb

/-- The loop of the function `decode` and the test after it, on unbounded naturals (R154). -/
def decodeLoop (latch : MsbLatch) : List Byte → (acc off msb : Nat) → List Nat → CallResult (List Nat)
  | [], _, off, _, res => if off ≠ 0 then .err .incomplete else .ok res
  | b :: bs, acc, off, msb, res =>
    let value := b.toNat &&& 0x7F
    let msb' := msbAfter latch acc off msb value
    let acc' := (acc <<< 7) ||| value
    if off + msb' > 32 then .err .overflow
    else if b.toNat &&& 0x80 ≠ 0 then decodeLoop latch bs acc' (off + 7) msb' res
    else decodeLoop latch bs 0 0 msb' (res ++ [acc'])

/-- The function `decode` (R154). -/
def decodeSeq (latch : MsbLatch) (bs : List Byte) : CallResult (List Nat) :=
  match bs with
  | [] => .err .argument
  | b :: rest => decodeLoop latch (b :: rest) 0 0 0 []

/-- The words of a result as the integers they stand for. -/
def CallResult.toNats : CallResult (List Word) → CallResult (List Nat)
  | .pending => .pending
  | .ok ws => .ok (ws.map BitVec.toNat)
  | .err k => .err k

/-- Cut a stream into runs: a run ends at the first byte whose `C` is 0 (R74, R159). -/
def runsOf : List Byte → List (List Byte)
  | [] => []
  | b :: bs =>
    if contFlag b then
      match runsOf bs with
      | [] => [[b]]
      | run :: runs => (b :: run) :: runs
    else [b] :: runsOf bs

/-- The number a run stands for, the base-128 number of its groups (R72). -/
def runValue : List Byte → Nat
  | [] => 0
  | b :: bs => group b * 128 ^ bs.length + runValue bs

/-- The bit length of a run's first group. -/
def firstGroupBits (run : List Byte) : Nat := bitLen (group (run.headD 0))

/-- `L(b)`, the most bytes accepted in a run whose first group has bit length `b` (R159, R132). -/
def maxRunBytes (b : Nat) : Nat := (32 - b) / 7 + 1

/-- The last byte of the stream has `C` = 1. -/
def endsOpen (bs : List Byte) : Bool := match bs.getLast? with
  | none => false
  | some b => contFlag b

/-- A padded encoding: two or more bytes, first group 0 (00_scope.md glossary). -/
def isPadded (run : List Byte) : Bool := 2 ≤ run.length && group (run.headD 0) = 0

/-- An encoded number: every byte but the last has `C` = 1, the last has `C` = 0 (R71). -/
def isNumber : List Byte → Bool
  | [] => false
  | [b] => !contFlag b
  | b :: bs => contFlag b && isNumber bs

/-- The operations of a list that act on a block, the `NOP`s left out (R161). -/
def actsOn (b : Block) (ops : List Instr) : List Instr :=
  ops.filter fun i => decide (i.block = b) && decide (i.op ≠ .nop)

/-- The bytes a host reads from `ENC` through the read port, indices 0 to `len − 1` (R206). -/
def readOut (s : State) : List Byte :=
  (List.range (lenOutput s.enc.phase s.enc.obuf.length)).map fun i => (s.encRead i).data

end Sys2Proof.Machine
end

