-- ==== Sys2Proof/Safety.lean ====
section
/-! DEFINITION. What holds of the machine in every reachable state (10_state.md section 6), and which signals a host
can present. -/

namespace Sys2Proof.Machine

/-- The result spaces hold at most their capacities (R26, R27). The lists are dense from index 0 by their type
(R59), so this is the whole canonical form of the memory. -/
def Memory.wf (s : State) : Bool :=
  fits s.cfg.encCap s.enc.obuf.length && fits s.cfg.decCap s.dec.rbuf.length

/-- R35 and R25 for `ENC`: in phase `ERR` exactly when `err` is not `NONE`, then with an empty buffer, and `err` only
`NONE` or `ARGUMENT`. -/
def Enc.errInv (e : Enc) : Prop :=
  (e.phase = .err ↔ e.err ≠ .none) ∧ (e.phase = .err → e.obuf = []) ∧ (e.err = .none ∨ e.err = .argument)

/-- The content of `ENC.OBUF` is a concatenation of encoded numbers, each of an integer in range (R42). -/
def Enc.holdsNumbers (e : Enc) : Prop :=
  ∃ vs : List Nat, (∀ v ∈ vs, v ≤ maxValue) ∧ e.obuf = vs.flatMap encodeOne

/-- R35 for `DEC`. -/
def Dec.errInv (d : Dec) : Prop :=
  (d.phase = .err ↔ d.err ≠ .none) ∧ (d.phase = .err → d.rbuf = [])

/-- R36: at a number boundary the accumulator is 0. -/
def Dec.boundaryInv (d : Dec) : Prop := d.phase = .opened → d.off = 0 → d.acc = 0

/-- R37: `dec_seen` is redundant; and a delivered result is not empty (R128). -/
def Dec.seenInv (d : Dec) : Prop :=
  (d.phase = .opened → (d.seen = false ↔ d.rbuf = [] ∧ d.off = 0)) ∧
  (d.phase = .done → d.off = 0 ∧ d.rbuf ≠ [])

/-- R38: the values `dec_off` takes. -/
def Dec.offsetInv (d : Dec) : Prop := d.off.toNat ∈ [0, 7, 14, 21, 28, 35]

/-- The width bound behind R38, R39 and R41, for both values of `MSB_LATCH`: inside a number the accumulator has at
most `dec_off − 7 + dec_msb ≤ 32` significant bits. -/
def Dec.widthInv (d : Dec) : Prop :=
  d.phase = .opened →
    d.off.toNat + d.msb.toNat ≤ 39 ∧
    (d.off ≠ 0 → bitLen d.acc.toNat + 7 ≤ d.off.toNat + d.msb.toNat)

/-- The equality of R39, which is stated for `FIRST_GROUP` only. -/
def Dec.exactWidthInv (latch : MsbLatch) (d : Dec) : Prop :=
  latch = .firstGroup → d.phase = .opened → d.off ≠ 0 → d.msb ≠ 0 →
    bitLen d.acc.toNat + 7 = d.off.toNat + d.msb.toNat

/-- The invariant of block `ENC` (R35, R42). -/
structure Enc.Inv (e : Enc) : Prop where
  err : e.errInv
  numbers : e.holdsNumbers

/-- The invariant of block `DEC` (R35 to R39). -/
structure Dec.Inv (latch : MsbLatch) (d : Dec) : Prop where
  err : d.errInv
  boundary : d.boundaryInv
  seen : d.seenInv
  offset : d.offsetInv
  width : d.widthInv
  exactWidth : d.exactWidthInv latch

/-- The invariant of the machine. -/
structure State.Inv (s : State) : Prop where
  cfg : s.cfg.wf = true
  enc : s.enc.Inv
  dec : s.dec.Inv s.cfg.msbLatch
  memory : Memory.wf s = true

/-- The read indices of a cycle have the width of the `len` outputs (R29, R51). -/
def Cycle.fitsIndices (cfg : Config) (c : Cycle) : Bool :=
  fitsLen cfg.encCap c.encRdIdx && fitsLen cfg.decCap c.decRdIdx

/-- The signals of a cycle fit the ports they are presented at (R51, R77, R78). -/
def Cycle.fitsPorts (cfg : Config) (c : Cycle) : Bool :=
  c.encWord < 2 ^ wordBits cfg .enc && c.decWord < 2 ^ wordBits cfg .dec && c.fitsIndices cfg

/-- An operation of `ENC` would exceed the capacity: the `refuse` of R104. -/
def encOver (s : State) (v : Nat) : Prop :=
  s.enc.phase = .opened ∧ v ≤ maxValue ∧
    ∃ cap, s.cfg.encCap = some cap ∧ cap < s.enc.obuf.length + max 1 ((bitLen v + 6) / 7)

/-- `msb'` of R122 as a natural number, for both values of `MSB_LATCH` (R124). -/
def nextMsb (s : State) (b : Byte) : Nat :=
  msbAfter s.cfg.msbLatch s.dec.acc.toNat s.dec.off.toNat s.dec.msb.toNat (b.toNat % 128)

/-- An operation of `DEC` would exceed the capacity: the `refuse` of R122. -/
def decOver (s : State) (b : Byte) : Prop :=
  s.dec.phase = .opened ∧ s.dec.off.toNat + nextMsb s b ≤ 32 ∧ b.toNat < 128 ∧
    ∃ cap, s.cfg.decCap = some cap ∧ cap < s.dec.rbuf.length + 1

end Sys2Proof.Machine
end

