-- ==== Sys2Proof/Certificates/Slice0/Obligations.lean ====
section
/-! DEFINITION. The statements for the provers. -/

open Sys2Proof Sys2Proof.Machine

/-! ### Command words -/

/-- Encoding a well-formed operation and decoding the word at its port gives the operation back, for every
parameter (R77, R78, R80). -/
def Obligations.DecodeOfEncodeIsTheOperation : Prop :=
  ∀ (cfg : Config) (i : Instr), i.wellFormed cfg = true →
    encode cfg i < 2 ^ wordBits cfg i.block ∧ decode cfg i.block (encode cfg i) = .ok i

/-- Every word of a port's width decodes, to a well-formed operation of that port whose code and data are the word's
two fields (R77, R78, R80, R81); that no wider number decodes is the model's choice (log entry 5). -/
def Obligations.EveryCommandWordDecodes : Prop :=
  ∀ cfg : Config,
    wordBits cfg .enc = cfg.wIn + 2 ∧ wordBits cfg .dec = 10 ∧
    ∀ (b : Block) (w : Nat),
      (w < 2 ^ wordBits cfg b →
        ∃ i, decode cfg b w = .ok i ∧ i.block = b ∧ i.wellFormed cfg = true ∧
          (i.op = .nop ↔ w / 2 ^ dataBits cfg b = 0) ∧
          (i.op = .push ↔ w / 2 ^ dataBits cfg b = 1) ∧
          (i.op = .finish ↔ w / 2 ^ dataBits cfg b = 2) ∧
          (i.op = .clear ↔ w / 2 ^ dataBits cfg b = 3) ∧
          (i.op = .push → i.data = w % 2 ^ dataBits cfg b)) ∧
      (2 ^ wordBits cfg b ≤ w → decode cfg b w = .error .wordTooWide)

/-- Two words with one code other than `PUSH` are one operation, and the operation's own word has a zero data field
(R82). -/
def Obligations.IgnoredDataGivesOneOperation : Prop :=
  ∀ (cfg : Config) (b : Block) (w w' : Nat), w < 2 ^ wordBits cfg b →
    w / 2 ^ dataBits cfg b = w' / 2 ^ dataBits cfg b → w / 2 ^ dataBits cfg b ≠ 1 →
    ∃ i, decode cfg b w = .ok i ∧ decode cfg b w' = .ok i ∧ encode cfg i % 2 ^ dataBits cfg b = 0

/-- The words R80 writes out, and the same `ENC` words for `W_IN` = 40. -/
def Obligations.SpecCommandWordsDecode : Prop :=
  decodeTableWord 40 0x000000000 = some .encNop ∧
  decodeTableWord 40 0x200004000 = some (.encPush 0x4000) ∧
  decodeTableWord 40 0x300000000 = some (.encPush 0x100000000) ∧
  decodeTableWord 40 0x400000000 = some .encEnd ∧
  decodeTableWord 40 0x600000000 = some .encClr ∧
  decodeTableWord 16 0x000 = some .decNop ∧
  decodeTableWord 16 0x181 = some (.decPush 0x81) ∧
  decodeTableWord 16 0x200 = some .decEnd ∧
  decodeTableWord 16 0x300 = some .decClr ∧
  decode { Config.normative with wIn := 40 } .enc 0x10000004000 = .ok (.encPush 0x4000) ∧
  decode { Config.normative with wIn := 40 } .enc 0x20000000000 = .ok .encEnd

/-! ### The step -/

/-- In a cycle without reset whose read indices fit their ports (which changes nothing else: reading has no effect),
each block takes the operation its port decodes to; a port that carries `NOP` adds
nothing to the other's operation (R60, R210; one step as one cycle of both blocks is log entry 3). -/
def Obligations.StepRunsTheOperationAtEachPort : Prop :=
  ∀ (s : State) (i j : Instr), s.cycle.rst = false → s.cycle.fitsIndices s.cfg = true →
    decode s.cfg .enc s.cycle.encWord = .ok i → decode s.cfg .dec s.cycle.decWord = .ok j →
    step s = andThen (exec i { s with pending := s.pending.tail }) (exec j) ∧
    (i = .encNop → step s = exec j { s with pending := s.pending.tail }) ∧
    (j = .decNop → step s = exec i { s with pending := s.pending.tail })

/-- Presenting well-formed operations one a cycle (log entry 1) and running as many cycles is running the operations:
what the statements over `runOps` say, they say of steps. -/
def Obligations.PresentedCyclesRunTheOperations : Prop :=
  ∀ (s : State) (ops : List Instr), (∀ i ∈ ops, i.wellFormed s.cfg = true) →
    Host.Core.run Sys2Proof.core ops.length { s with pending := ops.map (presentOp s.cfg) ++ s.pending } =
      runOps ops s

/-- Reset wins over whatever is presented with it (R200). -/
def Obligations.ResetWinsOverPresentedOperations : Prop :=
  ∀ s : State, s.cycle.rst = true →
    step s = .next
      { cfg := s.cfg
        enc := { phase := .opened, err := .none, obuf := [] }
        dec := { phase := .opened, err := .none, seen := false, acc := 0, off := 0, msb := 0, rbuf := [] }
        pending := s.pending.tail }

/-- The state after reset, after `ENC.CLR` and after `DEC.CLR` is the table of R34, in every phase (R106, R129). -/
def Obligations.ResetAndClearGiveTheTable : Prop :=
  State.reset.enc = { phase := .opened, err := .none, obuf := [] } ∧
  State.reset.dec =
    { phase := .opened, err := .none, seen := false, acc := 0, off := 0, msb := 0, rbuf := [] } ∧
  ∀ s : State,
    exec .encClr s = .next { s with enc := { phase := .opened, err := .none, obuf := [] } } ∧
    exec .decClr s = .next { s with dec :=
      { phase := .opened, err := .none, seen := false, acc := 0, off := 0, msb := 0, rbuf := [] } }

/-- A host with nothing to present leaves every register as it is (R191, R195). That it is then idle is log
entry 1. -/
def Obligations.IdleCyclesKeepEveryRegister : Prop :=
  ∀ s : State,
    (s.pending = [] → step s = .next s) ∧
    ∀ rest, s.pending = Cycle.idle :: rest → step s = .next { s with pending := rest }

/-! ### The operations -/

/-- `NOP` at either port, whatever its data field, changes nothing in any phase (R103, R121). -/
def Obligations.NopChangesNothing : Prop :=
  (∀ (cfg : Config) (data : Nat), data < 2 ^ cfg.wIn → decode cfg .enc (0b00 * 2 ^ cfg.wIn + data) = .ok .encNop) ∧
  (∀ (cfg : Config) (data : Nat), data < 2 ^ 8 → decode cfg .dec (0b00 * 2 ^ 8 + data) = .ok .decNop) ∧
  ∀ s : State, exec .encNop s = .next s ∧ exec .decNop s = .next s

/-- `ENC.PUSH v` (R104) in every case, with the bytes it appends given by the closed form of R102. -/
def Obligations.EncPushChecksThenAppends : Prop :=
  (∀ (cfg : Config) (v : Nat), v < 2 ^ cfg.wIn → decode cfg .enc (0b01 * 2 ^ cfg.wIn + v) = .ok (.encPush v)) ∧
  ∀ (s : State) (v : Nat),
    (s.enc.phase ≠ .opened → exec (.encPush v) s = .next s) ∧
    (s.enc.phase = .opened → 0xFFFFFFFF < v →
      exec (.encPush v) s = .next { s with enc := { phase := .err, err := .argument, obuf := [] } }) ∧
    (s.enc.phase = .opened → v ≤ 0xFFFFFFFF →
      (∀ cap, s.cfg.encCap = some cap → s.enc.obuf.length + max 1 ((bitLen v + 6) / 7) ≤ cap) →
      ∃ bytes : List Byte, bytes.length = max 1 ((bitLen v + 6) / 7) ∧
        (∀ j < bytes.length, bytes[j]? = some (BitVec.ofNat 8
          (((v >>> (7 * (bytes.length - 1 - j))) &&& 0x7F) ||| (if j < bytes.length - 1 then 0x80 else 0)))) ∧
        exec (.encPush v) s = .next { s with enc := { s.enc with obuf := s.enc.obuf ++ bytes } }) ∧
    (s.enc.phase = .opened → v ≤ 0xFFFFFFFF → ∀ cap, s.cfg.encCap = some cap →
      cap < s.enc.obuf.length + max 1 ((bitLen v + 6) / 7) →
      exec (.encPush v) s = .refused (.overCapacity .enc))

/-- `ENC.END` (R105): in phase `OPEN` the result becomes readable whole; in the others nothing happens. -/
def Obligations.EncEndDeliversTheBytes : Prop :=
  (∀ (cfg : Config) (data : Nat), data < 2 ^ cfg.wIn → decode cfg .enc (0b10 * 2 ^ cfg.wIn + data) = .ok .encEnd) ∧
  ∀ s : State,
    (s.enc.phase ≠ .opened → exec .encEnd s = .next s) ∧
    (s.enc.phase = .opened →
      exec .encEnd s = .next { s with enc := { s.enc with phase := .done } } ∧
      ∀ t, exec .encEnd s = .next t →
        t.encOutputs.phase = 1 ∧ t.encOutputs.len = s.enc.obuf.length ∧ t.encOutputs.err = s.encOutputs.err ∧
        ∀ (k : Nat) (h : k < s.enc.obuf.length), t.encRead k = { valid := true, data := s.enc.obuf[k] })

/-- `DEC.PUSH b` (R122) in every case and for both values of `MSB_LATCH`, in naturals: the check of R125, the
accumulation of R126 and the two ends of R127. It never raises on the first byte of a number. -/
def Obligations.DecPushTakesTheFiveSteps : Prop :=
  (∀ (cfg : Config) (b : Byte), decode cfg .dec (0b01 * 2 ^ 8 + b.toNat) = .ok (.decPush b)) ∧
  ∀ (s : State) (b : Byte) (value msb : Nat),
    value = b.toNat % 128 →
    msb = (match s.cfg.msbLatch with
      | .firstGroup => if s.dec.off.toNat = 0 then bitLen value else s.dec.msb.toNat
      | .accZero => if s.dec.acc.toNat = 0 then bitLen value else s.dec.msb.toNat) →
    (s.dec.phase ≠ .opened → exec (.decPush b) s = .next s) ∧
    (s.dec.off.toNat = 0 → s.dec.off.toNat + msb ≤ 32) ∧
    (s.dec.phase = .opened → 32 < s.dec.off.toNat + msb →
      exec (.decPush b) s = .next { s with dec := { s.dec with
        phase := .err, err := .overflow, rbuf := [], seen := true, msb := BitVec.ofNat 3 msb } }) ∧
    (s.dec.phase = .opened → s.dec.off.toNat + msb ≤ 32 → 128 ≤ b.toNat →
      exec (.decPush b) s = .next { s with dec := { s.dec with
        seen := true, msb := BitVec.ofNat 3 msb,
        acc := BitVec.ofNat 32 (s.dec.acc.toNat * 128 + value),
        off := BitVec.ofNat 6 (s.dec.off.toNat + 7) } }) ∧
    (s.dec.phase = .opened → s.dec.off.toNat + msb ≤ 32 → b.toNat < 128 →
      (∀ cap, s.cfg.decCap = some cap → s.dec.rbuf.length + 1 ≤ cap) →
      exec (.decPush b) s = .next { s with dec := { s.dec with
        seen := true, msb := BitVec.ofNat 3 msb, acc := 0, off := 0,
        rbuf := s.dec.rbuf ++ [BitVec.ofNat 32 (s.dec.acc.toNat * 128 + value)] } }) ∧
    (s.dec.phase = .opened → s.dec.off.toNat + msb ≤ 32 → b.toNat < 128 →
      ∀ cap, s.cfg.decCap = some cap → cap < s.dec.rbuf.length + 1 →
      exec (.decPush b) s = .refused (.overCapacity .dec))

/-- `DEC.END` (R128) in every case. -/
def Obligations.DecEndChecksThenDelivers : Prop :=
  (∀ (cfg : Config) (data : Nat), data < 2 ^ 8 → decode cfg .dec (0b10 * 2 ^ 8 + data) = .ok .decEnd) ∧
  ∀ s : State,
    (s.dec.phase ≠ .opened → exec .decEnd s = .next s) ∧
    (s.dec.phase = .opened → s.dec.seen = false →
      exec .decEnd s = .next { s with dec := { s.dec with phase := .err, err := .argument, rbuf := [] } }) ∧
    (s.dec.phase = .opened → s.dec.seen = true → s.dec.off ≠ 0 →
      exec .decEnd s = .next { s with dec := { s.dec with phase := .err, err := .incomplete, rbuf := [] } }) ∧
    (s.dec.phase = .opened → s.dec.seen = true → s.dec.off = 0 →
      exec .decEnd s = .next { s with dec := { s.dec with phase := .done } } ∧
      ∀ t, exec .decEnd s = .next t →
        t.decOutputs.phase = 1 ∧ t.decOutputs.len = s.dec.rbuf.length ∧
        ∀ (k : Nat) (h : k < s.dec.rbuf.length), t.decRead k = { valid := true, data := s.dec.rbuf[k] })

/-! ### Errors and phases -/

/-- The table of R184 is complete, and error entry is R186: a block comes into phase `ERR` only out of `OPEN`, by one
of the four rows, with the row's kind, an empty buffer, the scratch registers as R186 leaves them, and nothing else
of the machine changed. -/
def Obligations.EveryErrorEntryIsARowOfTheTable : Prop :=
  ∀ (i : Instr) (s t : State), exec i s = .next t →
    (s.enc.phase ≠ .err → t.enc.phase = .err →
      s.enc.phase = .opened ∧ (∃ v, i = .encPush v ∧ 0xFFFFFFFF < v) ∧
      t = { s with enc := { phase := .err, err := .argument, obuf := [] } }) ∧
    (s.dec.phase ≠ .err → t.dec.phase = .err →
      s.dec.phase = .opened ∧
      ((∃ b, i = .decPush b ∧ 32 < s.dec.off.toNat + t.dec.msb.toNat ∧
          t = { s with dec := { s.dec with
            phase := .err, err := .overflow, rbuf := [], seen := true, msb := t.dec.msb } }) ∨
        (i = .decEnd ∧ s.dec.seen = false ∧
          t = { s with dec := { s.dec with phase := .err, err := .argument, rbuf := [] } }) ∨
        (i = .decEnd ∧ s.dec.seen = true ∧ s.dec.off ≠ 0 ∧
          t = { s with dec := { s.dec with phase := .err, err := .incomplete, rbuf := [] } })))

/-- The transition table of R193 for both blocks: the phase after each operation, in each phase, and after reset. -/
def Obligations.PhaseMachine : Prop :=
  (∀ (i : Instr) (s t : State) (b : Block), exec i s = .next t →
    (i.block ≠ b → t.phase b = s.phase b) ∧
    (i.block = b →
      (i.op = .nop → t.phase b = s.phase b) ∧
      (i.op = .push → s.phase b = .opened → t.phase b = .opened ∨ (t.phase b = .err ∧ t.err b ≠ .none)) ∧
      (i.op = .push → s.phase b ≠ .opened → t.phase b = s.phase b) ∧
      (i.op = .finish → s.phase b = .opened →
        t.phase b = .done ∨ (b = .dec ∧ t.phase b = .err ∧ t.err b ≠ .none)) ∧
      (i.op = .finish → s.phase b ≠ .opened → t.phase b = s.phase b) ∧
      (i.op = .clear → t.phase b = .opened))) ∧
  ∀ (s t : State) (b : Block), s.cycle.rst = true → step s = .next t → t.phase b = .opened

/-- `DONE` and `ERR` are sticky (R188): there `PUSH` and `END` change nothing, and only a step with `rst` or with the
block's `CLR` leaves them, to the reset state of the block, in which `err` is `NONE`. -/
def Obligations.ClosedPhasesAreSticky : Prop :=
  (∀ (i : Instr) (s : State), s.phase i.block ≠ .opened → i.op = .push ∨ i.op = .finish → exec i s = .next s) ∧
  ∀ (s t : State) (b : Block), s.phase b ≠ .opened → step s = .next t → t.phase b ≠ s.phase b →
    t.phase b = .opened ∧ t.err b = .none ∧
    (b = .enc → t.enc = State.reset.enc) ∧ (b = .dec → t.dec = State.reset.dec) ∧
    (s.cycle.rst = true ∨ ∃ i, i.op = .clear ∧ presented b s = .ok i)

/-- An `err` register once written keeps its value until a `CLR` (R189). -/
def Obligations.ErrorIsWrittenOncePerCall : Prop :=
  ∀ (i : Instr) (s t : State) (b : Block), s.Inv → exec i s = .next t → s.err b ≠ .none →
    i.op ≠ .clear ∨ i.block ≠ b → t.err b = s.err b ∧ t.phase b = .err

/-! ### Frames -/

/-- No operation of one block writes any state of the other, a parameter or a presented signal (R22). -/
def Obligations.OperationsKeepTheOtherBlock : Prop :=
  ∀ (i : Instr) (s t : State), exec i s = .next t →
    t.cfg = s.cfg ∧ t.pending = s.pending ∧
    (i.block = .enc → t.dec = s.dec) ∧ (i.block = .dec → t.enc = s.enc)

/-- Operations of the two blocks may be taken in either order: none is defined (R60, R194). -/
def Obligations.OperationsOfTheTwoBlocksCommute : Prop :=
  ∀ (i j : Instr) (s t : State), i.block = .enc → j.block = .dec →
    (andThen (exec i s) (exec j) = .next t ↔ andThen (exec j s) (exec i) = .next t)

/-- The result spaces are append-only (R53): an operation leaves every element at its index, or empties the whole
buffer by `CLR` or error entry; only `PUSH` adds, at most five bytes or one word. -/
def Obligations.ResultSpacesAreAppendOnly : Prop :=
  ∀ (i : Instr) (s t : State), exec i s = .next t →
    ((∃ added, t.enc.obuf = s.enc.obuf ++ added ∧ added.length ≤ 5 ∧
        (added ≠ [] → s.enc.phase = .opened ∧ ∃ v, i = .encPush v)) ∨
      (t.enc.obuf = [] ∧ (i = .encClr ∨ (s.enc.phase = .opened ∧ t.enc.phase = .err)))) ∧
    ((∃ added, t.dec.rbuf = s.dec.rbuf ++ added ∧ added.length ≤ 1 ∧
        (added ≠ [] → s.dec.phase = .opened ∧ ∃ b : Byte, b.toNat < 128 ∧ i = .decPush b)) ∨
      (t.dec.rbuf = [] ∧ (i = .decClr ∨ (s.dec.phase = .opened ∧ t.dec.phase = .err))))

/-! ### Observations -/

/-- The two read ports (R54, R55): an element in phase `DONE` below the length, else not valid and zero. -/
def Obligations.ReadPortsAnswerOnlyTheDeliveredResult : Prop :=
  ∀ (s : State) (k : Nat),
    (s.enc.phase = .done → ∀ h : k < s.enc.obuf.length, s.encRead k = { valid := true, data := s.enc.obuf[k] }) ∧
    (s.enc.phase ≠ .done ∨ s.enc.obuf.length ≤ k → s.encRead k = { valid := false, data := 0 }) ∧
    (s.dec.phase = .done → ∀ h : k < s.dec.rbuf.length, s.decRead k = { valid := true, data := s.dec.rbuf[k] }) ∧
    (s.dec.phase ≠ .done ∨ s.dec.rbuf.length ≤ k → s.decRead k = { valid := false, data := 0 })

/-- A read index has the width of `len` (R29, R51): every number where the capacity is unbounded, else those below 2 to
the bits of the capacity; the length and so every index of a result within its capacity is one; and a step without reset
goes on only with such indices at both ports, and else faults (log entry 11). Which index is presented matters to the
read answers only (R54, R55). -/
def Obligations.ReadIndexHasTheWidthOfLen : Prop :=
  (∀ i : Nat, fitsLen none i = true) ∧
  (∀ cap i : Nat, fitsLen (some cap) i = true ↔ i < 2 ^ bitLen cap) ∧
  (∀ s : State, Memory.wf s = true →
    (∀ k ≤ s.enc.obuf.length, fitsLen s.cfg.encCap k = true) ∧ (∀ k ≤ s.dec.rbuf.length, fitsLen s.cfg.decCap k = true) ∧
    fitsLen s.cfg.encCap s.encOutputs.len = true ∧ fitsLen s.cfg.decCap s.decOutputs.len = true) ∧
  (∀ s : State, s.cycle.rst = false →
    (fitsLen s.cfg.encCap s.cycle.encRdIdx = false → step s = .fault (.indexTooWide .enc)) ∧
    (fitsLen s.cfg.encCap s.cycle.encRdIdx = true → fitsLen s.cfg.decCap s.cycle.decRdIdx = false →
      step s = .fault (.indexTooWide .dec))) ∧
  ∀ (s : State) (c : Cycle) (rest : List Cycle) (i j : Nat),
    fitsLen s.cfg.encCap c.encRdIdx = true → fitsLen s.cfg.decCap c.decRdIdx = true →
    fitsLen s.cfg.encCap i = true → fitsLen s.cfg.decCap j = true →
    step { s with pending := { c with encRdIdx := i, decRdIdx := j } :: rest } = step { s with pending := c :: rest } ∧
    ({ s with pending := { c with encRdIdx := i, decRdIdx := j } :: rest } : State).encOutputs.rd = s.encRead i ∧
    ({ s with pending := { c with encRdIdx := i, decRdIdx := j } :: rest } : State).decOutputs.rd = s.decRead j

/-- The status outputs (R29) with the codes of R24 and R25; `len` fits the bits its capacity needs. -/
def Obligations.StatusOutputs : Prop :=
  ∀ s : State,
    (s.enc.phase = .opened → s.encOutputs.phase = 0) ∧ (s.enc.phase = .done → s.encOutputs.phase = 1) ∧
    (s.enc.phase = .err → s.encOutputs.phase = 2) ∧
    (s.dec.phase = .opened → s.decOutputs.phase = 0) ∧ (s.dec.phase = .done → s.decOutputs.phase = 1) ∧
    (s.dec.phase = .err → s.decOutputs.phase = 2) ∧
    (s.enc.err = .none → s.encOutputs.err = 0) ∧ (s.enc.err = .argument → s.encOutputs.err = 1) ∧
    (s.dec.err = .none → s.decOutputs.err = 0) ∧ (s.dec.err = .argument → s.decOutputs.err = 1) ∧
    (s.dec.err = .overflow → s.decOutputs.err = 2) ∧ (s.dec.err = .incomplete → s.decOutputs.err = 3) ∧
    (s.enc.phase = .done → s.encOutputs.len = s.enc.obuf.length) ∧ (s.enc.phase ≠ .done → s.encOutputs.len = 0) ∧
    (s.dec.phase = .done → s.decOutputs.len = s.dec.rbuf.length) ∧ (s.dec.phase ≠ .done → s.decOutputs.len = 0) ∧
    (Memory.wf s = true → ∀ cap, s.cfg.encCap = some cap → s.encOutputs.len < 2 ^ bitLen cap) ∧
    (Memory.wf s = true → ∀ cap, s.cfg.decCap = some cap → s.decOutputs.len < 2 ^ bitLen cap)

/-- `NOP`, `END` and `CLR` are idempotent, and so is `PUSH` outside phase `OPEN` (R63). -/
def Obligations.RepeatingChangesNothingMore : Prop :=
  ∀ (i : Instr) (s t : State), i.op ≠ .push ∨ s.phase i.block ≠ .opened → exec i s = .next t → exec i t = .next t

/-! ### Where the machine stops -/

/-- An operation is refused exactly where a `PUSH` would exceed the capacity, never faults, and goes on otherwise; so
with unbounded capacities every operation goes on (R209). -/
def Obligations.RefusedExactlyOverCapacity : Prop :=
  (∀ (i : Instr) (s : State),
    (∃ t, exec i s = .next t) ∨
    (∃ v, i = .encPush v ∧ encOver s v ∧ exec i s = .refused (.overCapacity .enc)) ∨
    (∃ b, i = .decPush b ∧ decOver s b ∧ exec i s = .refused (.overCapacity .dec))) ∧
  (∀ (s : State) (v : Nat), encOver s v → exec (.encPush v) s = .refused (.overCapacity .enc)) ∧
  (∀ (s : State) (b : Byte), decOver s b → exec (.decPush b) s = .refused (.overCapacity .dec)) ∧
  ∀ (i : Instr) (s : State), s.cfg.encCap = none → s.cfg.decCap = none → ∃ t, exec i s = .next t

/-- A step never faults where the presented words and read indices fit their ports (the faults on wider ones are the
model's choice, log entries 5 and 11), and with unbounded capacities it always goes on (R81, R209). -/
def Obligations.FittingSignalsNeverFault : Prop :=
  ∀ s : State, s.cycle.fitsPorts s.cfg = true →
    (∀ r, step s ≠ .fault r) ∧ (s.cfg.encCap = none → s.cfg.decCap = none → ∃ t, step s = .next t)

/-! ### The arithmetic -/

/-- `EXTRACT7` and its recomposition (R90, R91); on a byte it gives the group and the continuation flag (R123). -/
def Obligations.ExtractedGroupsRecompose : Prop :=
  (∀ a : Nat, extract7 a = (a % 128, a / 128) ∧ a = (extract7 a).2 * 128 + (extract7 a).1 ∧
    a = ((extract7 a).2 <<< 7 ||| (extract7 a).1) ∧ (extract7 a).1 ≤ 127 ∧ (0 < a → (extract7 a).2 < a)) ∧
  ∀ b : Byte, extract7 b.toNat = (group b, if contFlag b then 1 else 0)

/-- `BITLEN` (R92): 0 for 0, else the `n` with `2^(n−1) ≤ v < 2ⁿ`; a group's fits three bits. -/
def Obligations.BitLengthIsThePositionOfTheTopBit : Prop :=
  bitLen 0 = 0 ∧
  (∀ v n : Nat, 0 < v → (bitLen v = n ↔ 0 < n ∧ 2 ^ (n - 1) ≤ v ∧ v < 2 ^ n)) ∧
  ∀ v : Nat, v < 128 → bitLen v ≤ 7

/-- The closed form of `EncodeOne` (R102), with its length, and its first group not 0 unless it has one byte. -/
def Obligations.EncodeOneClosedForm : Prop :=
  ∀ v n : Nat, v ≤ 0xFFFFFFFF → n = max 1 ((bitLen v + 6) / 7) →
    (encodeOne v).length = n ∧ 1 ≤ n ∧ n ≤ 5 ∧
    (∀ j < n, (encodeOne v)[j]? = some (BitVec.ofNat 8
      (((v >>> (7 * (n - 1 - j))) &&& 0x7F) ||| (if j < n - 1 then 0x80 else 0)))) ∧
    (n ≠ 1 → group ((encodeOne v).headD 0) ≠ 0)

/-- `EncodeOne(v)` is an encoded number that stands for `v` (R71, R72), and the shortest: every encoded number for `v`
is at least as long, and is `EncodeOne(v)` itself unless padded (R75). -/
def Obligations.EncodeOneIsTheMinimalNumber : Prop :=
  ∀ v : Nat, v ≤ 0xFFFFFFFF →
    isNumber (encodeOne v) = true ∧ runValue (encodeOne v) = v ∧ isPadded (encodeOne v) = false ∧
    ∀ run : List Byte, isNumber run = true → runValue run = v →
      (encodeOne v).length ≤ run.length ∧ (isPadded run = false → run = encodeOne v)

/-- Wherever the overflow check passes, the accumulator's shift loses no bit, for both values of `MSB_LATCH`
(R41, R126). -/
def Obligations.AccumulatorLosesNoBit : Prop :=
  ∀ (s : State) (b : Byte), s.dec.Inv s.cfg.msbLatch → s.dec.phase = .opened →
    s.dec.off.toNat + nextMsb s b ≤ 32 →
    s.dec.acc.toNat * 128 + group b < 2 ^ 32 ∧
    (accumulate s.dec.acc (group b)).toNat = s.dec.acc.toNat * 128 + group b

/-! ### The invariant -/

/-- The state after reset meets the invariant. -/
def Obligations.ResetMeetsTheInvariant : Prop := State.reset.Inv

/-- Every step keeps the invariant: R35 to R39 and the state part of R42, for both values of `MSB_LATCH` and every
capacity. -/
def Obligations.StepKeepsTheInvariant : Prop :=
  ∀ s t : State, s.Inv → step s = .next t → t.Inv

/-! ### Whole calls -/

/-- While a call is open, `enc_obuf` is the concatenation of the encodings of the values pushed, all of them in range
(R42). -/
def Obligations.EncoderBufferIsTheConcatenation : Prop :=
  ∀ (s t : State) (xs : List Nat), runOps (.encClr :: xs.map .encPush) s = .next t → t.enc.phase = .opened →
    (∀ x ∈ xs, x ≤ 0xFFFFFFFF) ∧ t.enc.obuf = xs.flatMap encodeOne

/-- Every word of `dec_rbuf`, during a call and after its `END`, is the mathematical value of the number it came from,
with no truncation, and at most 2³² − 1 (R40), for both values of `MSB_LATCH`. -/
def Obligations.DecodedWordsAreExact : Prop :=
  ∀ (s t : State) (bs : List Byte) (last : List Instr), last = [] ∨ last = [.decEnd] →
    runOps (.decClr :: (bs.map .decPush ++ last)) s = .next t →
    (t.dec.phase ≠ .err →
      t.dec.rbuf.map BitVec.toNat = ((runsOf bs).filter isNumber).map runValue ∧
      ∀ v ∈ ((runsOf bs).filter isNumber).map runValue, v ≤ 0xFFFFFFFF) ∧
    (t.dec.phase = .err → t.dec.rbuf = [])

/-- The hardware computes `encode` from any state, provided no `PUSH` is refused for capacity, and none is where the
encodings up to the first value out of range fit (R152). -/
def Obligations.EncoderComputesEncode : Prop :=
  ∀ (s : State) (xs : List Nat) (ops : List Instr),
    (ops.filter fun i => decide (i ≠ .encNop)) = encodeCall xs →
    (∀ t, runOps ops s = .next t →
      encResult t = encodeSeq xs ∧ t.cfg = s.cfg ∧ t.dec = s.dec ∧ t.pending = s.pending) ∧
    ((∀ cap, s.cfg.encCap = some cap →
      ((xs.takeWhile fun x => decide (x ≤ 0xFFFFFFFF)).flatMap encodeOne).length ≤ cap) →
      ∃ t, runOps ops s = .next t)

/-- The hardware computes `decode` from any state, for both values of `MSB_LATCH`, provided no `PUSH` is refused for
capacity, and none is where the terminal bytes are at most `DEC_CAP` (R155). -/
def Obligations.DecoderComputesDecode : Prop :=
  ∀ (s : State) (bs : List Byte) (ops : List Instr),
    (ops.filter fun i => decide (i ≠ .decNop)) = decodeCall bs →
    (∀ t, runOps ops s = .next t →
      (decResult t).toNats = decodeSeq s.cfg.msbLatch bs ∧
      t.cfg = s.cfg ∧ t.enc = s.enc ∧ t.pending = s.pending) ∧
    ((∀ cap, s.cfg.decCap = some cap → (bs.filter fun b => !contFlag b).length ≤ cap) →
      ∃ t, runOps ops s = .next t)

/-- Round trip (R156, R157): decoding the encoding of a non-empty sequence in range gives it back, under both values of
`MSB_LATCH`; the empty sequence is the exception (C2). -/
def Obligations.DecodeOfEncodeIsIdentity : Prop :=
  (∀ (latch : MsbLatch) (xs : List Nat), xs ≠ [] → (∀ x ∈ xs, x ≤ 0xFFFFFFFF) →
    ∃ bytes, encodeSeq xs = .ok bytes ∧ decodeSeq latch bytes = .ok xs) ∧
  encodeSeq [] = .ok [] ∧ ∀ latch, decodeSeq latch [] = .err .argument

/-- The round trip through the machine: an encode call, every byte read from the `ENC` read port, a decode call with
those bytes, and every integer read back from the `DEC` read port. -/
def Obligations.RoundTripThroughBothBlocks : Prop :=
  ∀ (s : State) (xs : List Nat), xs ≠ [] → (∀ x ∈ xs, x ≤ 0xFFFFFFFF) →
    (∀ cap, s.cfg.encCap = some cap → (xs.flatMap encodeOne).length ≤ cap) →
    (∀ cap, s.cfg.decCap = some cap → xs.length ≤ cap) →
    ∃ t u, runOps (encodeCall xs) s = .next t ∧ runOps (decodeCall (readOut t)) t = .next u ∧
      t.encOutputs.len = (readOut t).length ∧ u.decOutputs.len = xs.length ∧ u.decOutputs.err = 0 ∧
      ∀ (k : Nat) (h : k < xs.length), u.decRead k = { valid := true, data := BitVec.ofNat 32 xs[k] }

/-- Decoding, then encoding (R158): the same bytes where no number is padded, strictly fewer where some is; decoding
again gives the same integers. -/
def Obligations.EncodeOfDecodeIsTheMinimalStream : Prop :=
  ∀ (latch : MsbLatch) (bs : List Byte) (vs : List Nat), decodeSeq latch bs = .ok vs →
    ∃ bytes, encodeSeq vs = .ok bytes ∧ decodeSeq latch bytes = .ok vs ∧
      ((∀ run ∈ runsOf bs, isPadded run = false) → bytes = bs) ∧
      ((∃ run ∈ runsOf bs, isPadded run = true) → bytes.length < bs.length)

/-- Which streams `decode` accepts, in closed form, and where it raises (R159, `FIRST_GROUP`). -/
def Obligations.AcceptedStreamsInClosedForm : Prop :=
  (∀ bs : List Byte, decodeSeq .firstGroup bs =
    if bs = [] then .err .argument
    else if ∃ run ∈ runsOf bs, maxRunBytes (firstGroupBits run) < run.length then .err .overflow
    else if endsOpen bs = true then .err .incomplete
    else .ok ((runsOf bs).map runValue)) ∧
  (∀ before run : List Byte, before = [] ∨ (∃ vs, decodeSeq .firstGroup before = .ok vs) → runsOf run = [run] →
    ∀ k ≤ run.length, (decodeSeq .firstGroup (before ++ run.take k) = .err .overflow ↔
      maxRunBytes (firstGroupBits run) < k)) ∧
  ∀ run : List Byte, isNumber run = true →
    ((∃ vs, decodeSeq .firstGroup run = .ok vs) ↔ 7 * (run.length - 1) + firstGroupBits run ≤ 32)

/-- The table of R132 (`FIRST_GROUP`): the byte of a number at which the check fails, whatever that byte's own flag,
and the largest value accepted, which is reached. -/
def Obligations.LongestAcceptedNumber : Prop :=
  (∀ (s : State) (first : List Byte) (b : Byte), s.cfg.msbLatch = .firstGroup →
    s.dec.phase = .opened → s.dec.off = 0 → (∀ c ∈ first, contFlag c = true) →
    (∀ cap, s.cfg.decCap = some cap → s.dec.rbuf.length + 1 ≤ cap) →
    ∃ t, runOps ((first ++ [b]).map .decPush) s = .next t ∧
      (t.dec.phase = .err ↔ (32 - firstGroupBits (first ++ [b])) / 7 + 2 ≤ (first ++ [b]).length)) ∧
  (∀ (run : List Byte) (v : Nat), isNumber run = true → decodeSeq .firstGroup run = .ok [v] →
    run.length ≤ maxRunBytes (firstGroupBits run) ∧
    v < 2 ^ (firstGroupBits run + 7 * (maxRunBytes (firstGroupBits run) - 1))) ∧
  ∀ g : Nat, g ≤ 7 → ∃ run : List Byte, isNumber run = true ∧ firstGroupBits run = g ∧
    run.length = maxRunBytes g ∧ decodeSeq .firstGroup run = .ok [2 ^ (g + 7 * (maxRunBytes g - 1)) - 1]

/-- No stream with a number of six or more bytes is accepted, padded or not, under either value of `MSB_LATCH`
(R132, R133). -/
def Obligations.SixByteNumbersAreRejected : Prop :=
  ∀ (latch : MsbLatch) (bs : List Byte), (∃ run ∈ runsOf bs, 6 ≤ run.length) → decodeSeq latch bs = .err .overflow

/-- The two values of `MSB_LATCH` agree on every stream in which no number reaches a fifth byte after a first group of
0, and so on every stream the encoder produces (R124). -/
def Obligations.LatchReadingsAgree : Prop :=
  (∀ bs : List Byte, (∀ run ∈ runsOf bs, 5 ≤ run.length → group (run.headD 0) ≠ 0) →
    decodeSeq .accZero bs = decodeSeq .firstGroup bs) ∧
  ∀ xs : List Nat, (∀ x ∈ xs, x ≤ 0xFFFFFFFF) →
    decodeSeq .accZero (xs.flatMap encodeOne) = decodeSeq .firstGroup (xs.flatMap encodeOne)

/-- Where the two values of `MSB_LATCH` part (93 U1): a number with first group 0 that reaches a fifth byte passes it
under `FIRST_GROUP`, and overflows there under `ACC_ZERO` exactly when its first non-zero group has five bits or
more. -/
def Obligations.LatchReadingsPartAtTheFifthByte : Prop :=
  ∀ b1 b2 b3 b4 b5 : Byte, contFlag b1 = true → contFlag b2 = true → contFlag b3 = true → contFlag b4 = true →
    group b1 = 0 →
    decodeSeq .firstGroup [b1, b2, b3, b4, b5] ≠ .err .overflow ∧
    (decodeSeq .accZero [b1, b2, b3, b4, b5] = .err .overflow ↔
      5 ≤ bitLen (([group b2, group b3, group b4].find? fun g => decide (g ≠ 0)).getD (group b5)))

/-- `encode` is injective, and no minimal encoded number is a prefix of another (R160). -/
def Obligations.EncodingIsSelfDelimiting : Prop :=
  (∀ xs ys : List Nat, (∀ x ∈ xs, x ≤ 0xFFFFFFFF) → (∀ y ∈ ys, y ≤ 0xFFFFFFFF) →
    encodeSeq xs = encodeSeq ys → xs = ys) ∧
  ∀ v w : Nat, v ≤ 0xFFFFFFFF → w ≤ 0xFFFFFFFF → encodeOne v <+: encodeOne w → v = w

/-- What a block ends in depends on the parameters and on its own operations that are not `NOP`, and on nothing else: not on
the other block, on where `NOP`s stand, or, where the operations begin with `CLR`, on what it held (R161, R194). -/
def Obligations.OutcomeDependsOnOwnOperationsOnly : Prop :=
  ∀ (s₁ s₂ t₁ t₂ : State) (ops₁ ops₂ : List Instr), s₁.cfg = s₂.cfg →
    runOps ops₁ s₁ = .next t₁ → runOps ops₂ s₂ = .next t₂ →
    (actsOn .enc ops₁ = actsOn .enc ops₂ → s₁.enc = s₂.enc ∨ (actsOn .enc ops₁).head? = some .encClr →
      t₁.enc = t₂.enc) ∧
    (actsOn .dec ops₁ = actsOn .dec ops₂ → s₁.dec = s₂.dec ∨ (actsOn .dec ops₁).head? = some .decClr →
      t₁.dec = t₂.dec)

/-- Every call ends all or nothing (R187): `DONE` with no error and the whole result readable, or `ERR` with an error
and nothing readable. -/
def Obligations.CallsEndAllOrNothing : Prop :=
  (∀ (s t : State) (xs : List Nat), runOps (encodeCall xs) s = .next t →
    (t.enc.phase = .done ∧ t.enc.err = .none ∧ t.encOutputs.len = t.enc.obuf.length ∧
      ∀ k < t.enc.obuf.length, (t.encRead k).valid = true) ∨
    (t.enc.phase = .err ∧ t.enc.err ≠ .none ∧ t.encOutputs.len = 0 ∧
      ∀ k, t.encRead k = { valid := false, data := 0 })) ∧
  ∀ (s t : State) (bs : List Byte), runOps (decodeCall bs) s = .next t →
    (t.dec.phase = .done ∧ t.dec.err = .none ∧ t.decOutputs.len = t.dec.rbuf.length ∧
      ∀ k < t.dec.rbuf.length, (t.decRead k).valid = true) ∨
    (t.dec.phase = .err ∧ t.dec.err ≠ .none ∧ t.decOutputs.len = 0 ∧
      ∀ k, t.decRead k = { valid := false, data := 0 })

/-- Without its `END` an open call delivers nothing, and the two errors detected only at `END` are not raised (R208). -/
def Obligations.WithoutEndNothingIsDelivered : Prop :=
  ∀ (s t : State) (ops : List Instr), runOps ops s = .next t →
    (s.enc.phase = .opened → .encEnd ∉ ops → t.encOutputs.len = 0 ∧ ∀ k, (t.encRead k).valid = false) ∧
    (s.dec.phase = .opened → s.dec.err = .none → .decEnd ∉ ops →
      t.decOutputs.len = 0 ∧ (∀ k, (t.decRead k).valid = false) ∧
      t.dec.err ≠ .argument ∧ t.dec.err ≠ .incomplete)
end

