-- ==== Sys2Proof/Laws/Decode.lean ====
section
/-! SUPPORT. The fields of a command word. -/

namespace Sys2Proof

@[simp] theorem Op.ofCode_code (o : Op) : Op.ofCode o.code = some o := by cases o <;> rfl

theorem Op.ofCode_eq_some {c : Nat} {o : Op} : Op.ofCode c = some o ↔ c = o.code := by
  constructor
  · intro h
    unfold Op.ofCode at h
    split at h <;> cases h <;> rfl
  · rintro rfl; simp

theorem Op.ofCode_eq_none {c : Nat} : Op.ofCode c = none ↔ 4 ≤ c := by
  match c with
  | 0 => simp [Op.ofCode]
  | 1 => simp [Op.ofCode]
  | 2 => simp [Op.ofCode]
  | 3 => simp [Op.ofCode]
  | n + 4 => simp [Op.ofCode]

theorem Op.code_lt (o : Op) : o.code < 4 := by cases o <;> decide

/-- A code above a data field that holds its data: OR is addition. -/
theorem code_or_data {n d : Nat} (c : Nat) (h : d < 2 ^ n) : (c <<< n) ||| d = c * 2 ^ n + d := by
  rw [Nat.shiftLeft_eq, Nat.mul_comm, Nat.two_pow_add_eq_or_of_lt h]

theorem word_code {n d : Nat} (c : Nat) (h : d < 2 ^ n) : ((c <<< n) ||| d) >>> n = c := by
  rw [code_or_data c h, Nat.shiftRight_eq_div_pow, Nat.mul_comm, Nat.mul_add_div (by positivity),
    Nat.div_eq_of_lt h, Nat.add_zero]

theorem word_data {n d : Nat} (c : Nat) (h : d < 2 ^ n) : ((c <<< n) ||| d) % 2 ^ n = d := by
  rw [code_or_data c h, Nat.mul_comm, Nat.mul_add_mod, Nat.mod_eq_of_lt h]

@[simp] theorem Instr.block_ofFields (d : Nat) (b : Block) (o : Op) : (Instr.ofFields d b o).block = b := by
  cases b <;> cases o <;> rfl

@[simp] theorem Instr.op_ofFields (d : Nat) (b : Block) (o : Op) : (Instr.ofFields d b o).op = o := by
  cases b <;> cases o <;> rfl

/-- The data of a well-formed operation fits its port's data field. -/
theorem Instr.data_lt {cfg : Config} {i : Instr} (h : i.wellFormed cfg = true) :
    i.data < 2 ^ dataBits cfg i.block := by
  cases i with
  | encPush v => exact of_decide_eq_true h
  | decPush b => exact b.isLt
  | encNop => exact Nat.two_pow_pos _
  | encEnd => exact Nat.two_pow_pos _
  | encClr => exact Nat.two_pow_pos _
  | decNop => exact Nat.two_pow_pos _
  | decEnd => exact Nat.two_pow_pos _
  | decClr => exact Nat.two_pow_pos _

/-- What `decode` answers, by the two fields of the word. -/
theorem decode_eq_ok {cfg : Config} {b : Block} {w : Nat} {i : Instr} :
    decode cfg b w = .ok i ↔
      ∃ o, w >>> dataBits cfg b = Op.code o ∧ i = Instr.ofFields (w % 2 ^ dataBits cfg b) b o := by
  unfold decode
  cases h : Op.ofCode (w >>> dataBits cfg b) with
  | none =>
    simp only [reduceCtorEq, false_iff, not_exists, not_and]
    intro o ho
    rw [ho, Op.ofCode_code] at h; cases h
  | some o =>
    have hc := Op.ofCode_eq_some.1 h
    constructor
    · intro e; cases e; exact ⟨o, hc, rfl⟩
    · rintro ⟨o', ho', rfl⟩
      rw [ho', Op.ofCode_code] at h; cases h; rfl

end Sys2Proof
end

