-- ==== Sys2Proof/Laws/Operands.lean ====
section
/-! SUPPORT. The arithmetic of the extractor, the bit length, the accumulator and the encoding loop. -/

namespace Sys2Proof.Machine

theorem extract7_fst (a : Nat) : (extract7 a).1 = a % 128 := by
  have h := Nat.and_two_pow_sub_one_eq_mod a 7
  simpa [extract7, groupMask] using h

theorem extract7_snd (a : Nat) : (extract7 a).2 = a / 128 := by
  simp [extract7, groupBits, Nat.shiftRight_eq_div_pow]

theorem group_eq (b : Byte) : group b = b.toNat % 128 := extract7_fst _

theorem group_lt (b : Byte) : group b < 128 := by rw [group_eq]; omega

theorem contFlag_eq (b : Byte) : contFlag b = decide (128 ≤ b.toNat) := by
  revert b; decide

theorem byte_and_contMask (b : Byte) : (b.toNat &&& 0x80 ≠ 0) ↔ contFlag b = true := by
  revert b; decide

/-- Setting the continuation flag of a group adds 128 (R94). -/
theorem or_contMask {g : Nat} (h : g < 128) : g ||| contMask = g + 128 := by
  have := Nat.two_pow_add_eq_or_of_lt (i := 7) (b := g) (by simpa using h) 1
  rw [Nat.lor_comm, contMask, Nat.add_comm]
  exact this.symm

theorem termByte_toNat {g : Nat} (h : g < 128) : (termByte g).toNat = g := by
  simp [termByte]; omega

theorem contByte_toNat {g : Nat} (h : g < 128) : (contByte g).toNat = g + 128 := by
  simp only [contByte, or_contMask h, BitVec.toNat_ofNat]; omega

theorem group_termByte {g : Nat} (h : g < 128) : group (termByte g) = g := by
  rw [group_eq, termByte_toNat h]; omega

theorem group_contByte {g : Nat} (h : g < 128) : group (contByte g) = g := by
  rw [group_eq, contByte_toNat h]; omega

theorem contFlag_termByte {g : Nat} (h : g < 128) : contFlag (termByte g) = false := by
  rw [contFlag_eq, termByte_toNat h]; simpa using h

theorem contFlag_contByte {g : Nat} (h : g < 128) : contFlag (contByte g) = true := by
  rw [contFlag_eq, contByte_toNat h]; simp

/-- A byte is its flag and its group (R70). -/
theorem byte_ext {a b : Byte} (hc : contFlag a = contFlag b) (hg : group a = group b) : a = b := by
  apply BitVec.eq_of_toNat_eq
  rw [contFlag_eq, contFlag_eq] at hc
  rw [group_eq, group_eq] at hg
  have := a.isLt; have := b.isLt
  by_cases h : 128 ≤ a.toNat <;> by_cases h' : 128 ≤ b.toNat <;> simp_all <;> omega

/-! ### The bit length -/

theorem bitLen_zero : bitLen 0 = 0 := rfl

theorem bitLen_of_pos {v : Nat} (h : 0 < v) : bitLen v = Nat.log2 v + 1 := by
  simp [bitLen, Nat.ne_of_gt h]

/-- `BITLEN(v) ≤ n` exactly when `v < 2ⁿ`: every bound of a bit length is read off this. -/
theorem bitLen_le_iff {v n : Nat} : bitLen v ≤ n ↔ v < 2 ^ n := by
  rcases Nat.eq_zero_or_pos v with rfl | h
  · simp [bitLen]
  · rw [bitLen_of_pos h, Nat.succ_le_iff, Nat.log2_lt (Nat.ne_of_gt h)]

theorem lt_bitLen_iff {v n : Nat} : n < bitLen v ↔ 2 ^ n ≤ v := by
  rw [← not_iff_not, not_lt, not_le, bitLen_le_iff]

theorem bitLen_pos {v : Nat} : 0 < bitLen v ↔ 0 < v := by
  rw [lt_bitLen_iff]; simp [Nat.pos_iff_ne_zero, Nat.one_le_iff_ne_zero]

theorem bitLen_eq_zero {v : Nat} : bitLen v = 0 ↔ v = 0 := by
  have := @bitLen_pos v; omega

/-- The bit length of a group fits `dec_msb` (R92). -/
theorem bitLen_group_le (b : Byte) : bitLen (group b) ≤ 7 := bitLen_le_iff.2 (group_lt b)

/-- A group under a non-zero number lengthens it by seven bits. -/
theorem bitLen_mul_add {v g : Nat} (hv : 0 < v) (hg : g < 128) :
    bitLen (v * 128 + g) = bitLen v + 7 := by
  have lo : 2 ^ (bitLen v - 1) ≤ v := lt_bitLen_iff.1 (by have := bitLen_pos.2 hv; omega)
  have hi : v < 2 ^ bitLen v := bitLen_le_iff.1 le_rfl
  have hb := bitLen_pos.2 hv
  have e : 2 ^ (bitLen v + 7) = 2 ^ bitLen v * 128 := by rw [Nat.pow_add]
  have e' : 2 ^ (bitLen v - 1 + 7) = 2 ^ (bitLen v - 1) * 128 := by rw [Nat.pow_add]
  apply le_antisymm
  · rw [bitLen_le_iff, e]; omega
  · have : bitLen v - 1 + 7 < bitLen (v * 128 + g) := lt_bitLen_iff.2 (by rw [e']; omega)
    omega

/-! ### The decoder's tests -/

theorem overflows_iff {off : BitVec 6} {msb : BitVec 3} :
    overflows off msb = true ↔ 32 < off.toNat + msb.toNat := by
  simp [overflows, ovfLimit]

theorem overflows_false_iff {off : BitVec 6} {msb : BitVec 3} :
    overflows off msb = false ↔ off.toNat + msb.toNat ≤ 32 := by
  simp [overflows, ovfLimit]

/-- `msb'` as a natural number is the `nextMsb` that claims are stated with. -/
theorem latchedMsb_toNat (s : State) (b : Byte) :
    (latchedMsb s.cfg.msbLatch s.dec (group b)).toNat = nextMsb s b := by
  have h7 := bitLen_group_le b
  rw [group_eq] at h7
  have fit : (BitVec.ofNat 3 (bitLen (b.toNat % 128))).toNat = bitLen (b.toNat % 128) := by
    rw [BitVec.toNat_ofNat]; exact Nat.mod_eq_of_lt (by omega)
  have hoff : s.dec.off = 0 ↔ s.dec.off.toNat = 0 := by rw [← BitVec.toNat_inj]; rfl
  have hacc : s.dec.acc = 0 ↔ s.dec.acc.toNat = 0 := by rw [← BitVec.toNat_inj]; rfl
  unfold latchedMsb nextMsb msbAfter
  rw [group_eq]
  cases s.cfg.msbLatch <;> simp only [latches, decide_eq_true_eq, hoff, hacc] <;> split <;> simp [fit]

/-- The accumulator step on the 32-bit register (R94, R126). -/
theorem accumulate_toNat (a : Word) {v : Nat} (h : v < 128) :
    (accumulate a v).toNat = (a.toNat * 128 + v) % 2 ^ 32 := by
  have e : accumulate a v = BitVec.ofNat 32 (a.toNat * 128 + v) := by
    have : a.toNat * 128 + v = a.toNat <<< 7 ||| v := by
      have := Nat.two_pow_add_eq_or_of_lt (i := 7) (b := v) (by simpa using h) a.toNat
      rw [Nat.shiftLeft_eq, Nat.mul_comm a.toNat (2 ^ 7), ← this]; omega
    rw [this]
    apply BitVec.eq_of_toNat_eq
    simp [accumulate, groupBits]
  rw [e, BitVec.toNat_ofNat]

/-! ### The encoding loop -/

theorem encodeLoop_zero (n : Nat) (w : List Byte) : encodeLoop n 0 w = w := by
  cases n <;> simp [encodeLoop]

theorem encodeLoop_succ (n : Nat) {r : Nat} (h : 0 < r) (w : List Byte) :
    encodeLoop (n + 1) r w = encodeLoop n (r / 128) (contByte (r % 128) :: w) := by
  simp [encodeLoop, Nat.ne_of_gt h, extract7_fst, extract7_snd]

theorem encodeOne_eq (v : Nat) : encodeOne v = encodeLoop 4 (v / 128) [termByte (v % 128)] := by
  simp [encodeOne, extract7_fst, extract7_snd]

/-- The loop only prepends. -/
theorem encodeLoop_append (n r : Nat) (w x : List Byte) :
    encodeLoop n r (w ++ x) = encodeLoop n r w ++ x := by
  induction n generalizing r w with
  | zero => rfl
  | succ n ih =>
    rcases Nat.eq_zero_or_pos r with rfl | h
    · simp [encodeLoop]
    · rw [encodeLoop_succ n h, encodeLoop_succ n h, ← List.cons_append, ih]

/-- `EncodeOne` is the continuation bytes of the upper groups, then the terminal byte. -/
theorem encodeOne_eq_append (v : Nat) :
    encodeOne v = encodeLoop 4 (v / 128) [] ++ [termByte (v % 128)] := by
  rw [encodeOne_eq, ← encodeLoop_append, List.nil_append]

/-- The lowest of the upper groups comes last. -/
theorem encodeLoop_succ_append (n : Nat) {r : Nat} (h : 0 < r) :
    encodeLoop (n + 1) r [] = encodeLoop n (r / 128) [] ++ [contByte (r % 128)] := by
  rw [encodeLoop_succ n h, ← encodeLoop_append, List.nil_append]

/-- A number below 2⁷ is one terminal byte. -/
theorem encodeOne_small {v : Nat} (h : v < 128) : encodeOne v = [termByte v] := by
  rw [encodeOne_eq, Nat.div_eq_of_lt h, encodeLoop_zero, Nat.mod_eq_of_lt h]

end Sys2Proof.Machine
end

