-- ==== Sys2Proof/Laws/State.lean ====
section
/-! SUPPORT. What each update of the state leaves in each field. -/

namespace Sys2Proof.Machine

variable (s : State) (k : ErrKind) (b : Byte) (a : Word)

@[simp] theorem raise_cfg (c : Block) : (raise c k s).cfg = s.cfg := by cases c <;> rfl
@[simp] theorem raise_pending (c : Block) : (raise c k s).pending = s.pending := by cases c <;> rfl
@[simp] theorem raise_enc_enc : (raise .enc k s).enc = { phase := .err, err := k, obuf := [] } := rfl
@[simp] theorem raise_enc_dec : (raise .enc k s).dec = s.dec := rfl
@[simp] theorem raise_dec_enc : (raise .dec k s).enc = s.enc := rfl
@[simp] theorem raise_dec_dec :
    (raise .dec k s).dec = { s.dec with phase := .err, err := k, rbuf := [] } := rfl

@[simp] theorem clear_cfg (c : Block) : (clear c s).cfg = s.cfg := by cases c <;> rfl
@[simp] theorem clear_pending (c : Block) : (clear c s).pending = s.pending := by cases c <;> rfl
@[simp] theorem clear_enc_enc : (clear .enc s).enc = Enc.reset := rfl
@[simp] theorem clear_enc_dec : (clear .enc s).dec = s.dec := rfl
@[simp] theorem clear_dec_enc : (clear .dec s).enc = s.enc := rfl
@[simp] theorem clear_dec_dec : (clear .dec s).dec = Dec.reset := rfl

@[simp] theorem resetBlocks_cfg : (resetBlocks s).cfg = s.cfg := rfl
@[simp] theorem resetBlocks_pending : (resetBlocks s).pending = s.pending := rfl
@[simp] theorem resetBlocks_enc : (resetBlocks s).enc = Enc.reset := rfl
@[simp] theorem resetBlocks_dec : (resetBlocks s).dec = Dec.reset := rfl

@[simp] theorem deliver_cfg (c : Block) : (deliver c s).cfg = s.cfg := by cases c <;> rfl
@[simp] theorem deliver_pending (c : Block) : (deliver c s).pending = s.pending := by cases c <;> rfl
@[simp] theorem deliver_enc_enc : (deliver .enc s).enc = { s.enc with phase := .done } := rfl
@[simp] theorem deliver_enc_dec : (deliver .enc s).dec = s.dec := rfl
@[simp] theorem deliver_dec_enc : (deliver .dec s).enc = s.enc := rfl
@[simp] theorem deliver_dec_dec : (deliver .dec s).dec = { s.dec with phase := .done } := rfl

@[simp] theorem advance_cfg : s.advance.cfg = s.cfg := rfl
@[simp] theorem advance_enc : s.advance.enc = s.enc := rfl
@[simp] theorem advance_dec : s.advance.dec = s.dec := rfl
@[simp] theorem advance_pending : s.advance.pending = s.pending.tail := rfl

@[simp] theorem latchGroup_cfg : (latchGroup b s).cfg = s.cfg := rfl
@[simp] theorem latchGroup_enc : (latchGroup b s).enc = s.enc := rfl
@[simp] theorem latchGroup_pending : (latchGroup b s).pending = s.pending := rfl
@[simp] theorem latchGroup_dec :
    (latchGroup b s).dec =
      { s.dec with seen := true, msb := latchedMsb s.cfg.msbLatch s.dec (group b) } := rfl

@[simp] theorem continueNumber_cfg : (continueNumber a s).cfg = s.cfg := rfl
@[simp] theorem continueNumber_enc : (continueNumber a s).enc = s.enc := rfl
@[simp] theorem continueNumber_pending : (continueNumber a s).pending = s.pending := rfl
@[simp] theorem continueNumber_dec :
    (continueNumber a s).dec = { s.dec with acc := a, off := s.dec.off + 7 } := rfl

@[simp] theorem phase_enc : s.phase .enc = s.enc.phase := rfl
@[simp] theorem phase_dec : s.phase .dec = s.dec.phase := rfl
@[simp] theorem err_enc : s.err .enc = s.enc.err := rfl
@[simp] theorem err_dec : s.err .dec = s.dec.err := rfl

end Sys2Proof.Machine
end

