-- ==== Sys2Proof/Laws/Ops.lean ====
section
/-! SUPPORT. Everything each shared operation can do, said once; and that every operation keeps the result spaces
within their capacities. -/

namespace Sys2Proof.Machine

/-! ### Sequencing -/

@[simp] theorem andThen_next (s : State) (f : State → Result) : andThen (.next s) f = f s := rfl
@[simp] theorem andThen_fault (r : Fault) (f : State → Result) : andThen (.fault r) f = .fault r := rfl
@[simp] theorem andThen_refused (r : Refusal) (f : State → Result) : andThen (.refused r) f = .refused r := rfl

theorem andThen_eq_next {o : Result} {f : State → Result} {t : State} :
    andThen o f = .next t ↔ ∃ u, o = .next u ∧ f u = .next t := by
  cases o <;> simp

theorem andThen_next_right (o : Result) : andThen o .next = o := by cases o <;> rfl

theorem andThen_assoc (o : Result) (f g : State → Result) :
    andThen (andThen o f) g = andThen o fun s => andThen (f s) g := by cases o <;> rfl

@[simp] theorem runOps_nil (s : State) : runOps [] s = .next s := rfl
@[simp] theorem runOps_cons (i : Instr) (ops : List Instr) (s : State) :
    runOps (i :: ops) s = andThen (exec i s) (runOps ops) := rfl

theorem runOps_append (ops ops' : List Instr) (s : State) :
    runOps (ops ++ ops') s = andThen (runOps ops s) (runOps ops') := by
  induction ops generalizing s with
  | nil => rfl
  | cons i ops ih =>
    simp only [List.cons_append, runOps_cons, andThen_assoc]
    exact congrArg _ (funext ih)

/-! ### The phase test -/

theorem whenOpen_of_opened {b : Block} {act : State → Result} {s : State} (h : s.phase b = .opened) :
    whenOpen b act s = act s := if_pos h

theorem whenOpen_of_closed {b : Block} {act : State → Result} {s : State} (h : s.phase b ≠ .opened) :
    whenOpen b act s = .next s := if_neg h

/-! ### Capacity -/

theorem fits_iff {cap : Option Nat} {n : Nat} : fits cap n = true ↔ ∀ c, cap = some c → n ≤ c := by
  cases cap <;> simp [fits]

theorem fits_false_iff {cap : Option Nat} {n : Nat} : fits cap n = false ↔ ∃ c, cap = some c ∧ c < n := by
  cases cap <;> simp [fits]

theorem fits_mono {cap : Option Nat} {m n : Nat} (h : fits cap n = true) (hmn : m ≤ n) : fits cap m = true :=
  fits_iff.2 fun c hc => hmn.trans (fits_iff.1 h c hc)

theorem appendBytes_cases (bytes : List Byte) (s : State) :
    (fits s.cfg.encCap (s.enc.obuf.length + bytes.length) = true ∧
      appendBytes bytes s = .next { s with enc := { s.enc with obuf := s.enc.obuf ++ bytes } }) ∨
    (fits s.cfg.encCap (s.enc.obuf.length + bytes.length) = false ∧
      appendBytes bytes s = .refused (.overCapacity .enc)) := by
  unfold appendBytes
  cases h : fits s.cfg.encCap (s.enc.obuf.length + bytes.length) <;> simp

theorem appendWord_cases (w : Word) (s : State) :
    (fits s.cfg.decCap (s.dec.rbuf.length + 1) = true ∧
      appendWord w s = .next { s with dec := { s.dec with rbuf := s.dec.rbuf ++ [w] } }) ∨
    (fits s.cfg.decCap (s.dec.rbuf.length + 1) = false ∧
      appendWord w s = .refused (.overCapacity .dec)) := by
  unfold appendWord
  cases h : fits s.cfg.decCap (s.dec.rbuf.length + 1) <;> simp

/-! ### The meanings that branch, case by case -/

theorem execEncPush_cases (v : Nat) (s : State) :
    (s.enc.phase ≠ .opened ∧ execEncPush v s = .next s) ∨
    (s.enc.phase = .opened ∧ maxValue < v ∧ execEncPush v s = .next (raise .enc .argument s)) ∨
    (s.enc.phase = .opened ∧ v ≤ maxValue ∧ execEncPush v s = appendBytes (encodeOne v) s) := by
  by_cases hp : s.enc.phase = .opened
  · by_cases hv : maxValue < v
    · exact .inr (.inl ⟨hp, hv, by rw [execEncPush, whenOpen_of_opened (b := .enc) (s := s) hp, outOfRange, if_pos (decide_eq_true hv)]⟩)
    · refine .inr (.inr ⟨hp, Nat.le_of_not_lt hv, ?_⟩)
      rw [execEncPush, whenOpen_of_opened (b := .enc) (s := s) hp, outOfRange, if_neg (by simpa using hv)]
  · exact .inl ⟨hp, whenOpen_of_closed (b := .enc) (s := s) hp⟩

theorem execEncEnd_cases (s : State) :
    (s.enc.phase ≠ .opened ∧ execEncEnd s = .next s) ∨
    (s.enc.phase = .opened ∧ execEncEnd s = .next (deliver .enc s)) := by
  by_cases hp : s.enc.phase = .opened
  · exact .inr ⟨hp, whenOpen_of_opened (b := .enc) (s := s) hp⟩
  · exact .inl ⟨hp, whenOpen_of_closed (b := .enc) (s := s) hp⟩

theorem execDecPush_cases (b : Byte) (s : State) :
    (s.dec.phase ≠ .opened ∧ execDecPush b s = .next s) ∨
    (s.dec.phase = .opened ∧ 32 < s.dec.off.toNat + nextMsb s b ∧
      execDecPush b s = .next (raise .dec .overflow (latchGroup b s))) ∨
    (s.dec.phase = .opened ∧ s.dec.off.toNat + nextMsb s b ≤ 32 ∧ contFlag b = true ∧
      execDecPush b s = .next (continueNumber (accumulate s.dec.acc (group b)) (latchGroup b s))) ∨
    (s.dec.phase = .opened ∧ s.dec.off.toNat + nextMsb s b ≤ 32 ∧ contFlag b = false ∧
      execDecPush b s = completeNumber (accumulate s.dec.acc (group b)) (latchGroup b s)) := by
  by_cases hp : s.dec.phase = .opened
  · rw [execDecPush, whenOpen_of_opened (b := .dec) (s := s) hp]
    simp only [latchGroup_dec]
    rcases Nat.lt_or_ge 32 (s.dec.off.toNat + nextMsb s b) with h | h
    · have hv : overflows s.dec.off (latchedMsb s.cfg.msbLatch s.dec (group b)) = true :=
        overflows_iff.2 (by rwa [latchedMsb_toNat])
      simp [hv, hp, h]
    · have hv : overflows s.dec.off (latchedMsb s.cfg.msbLatch s.dec (group b)) = false :=
        overflows_false_iff.2 (by rwa [latchedMsb_toNat])
      cases hc : contFlag b <;> simp [hv, hp, h]
  · exact .inl ⟨hp, whenOpen_of_closed (b := .dec) (s := s) hp⟩

theorem completeNumber_cases (a : Word) (s : State) :
    (fits s.cfg.decCap (s.dec.rbuf.length + 1) = true ∧
      completeNumber a s =
        .next { s with dec := { s.dec with acc := 0, off := 0, rbuf := s.dec.rbuf ++ [a] } }) ∨
    (fits s.cfg.decCap (s.dec.rbuf.length + 1) = false ∧
      completeNumber a s = .refused (.overCapacity .dec)) :=
  appendWord_cases a { s with dec := { s.dec with acc := 0, off := 0 } }

theorem execDecEnd_cases (s : State) :
    (s.dec.phase ≠ .opened ∧ execDecEnd s = .next s) ∨
    (s.dec.phase = .opened ∧ s.dec.seen = false ∧ execDecEnd s = .next (raise .dec .argument s)) ∨
    (s.dec.phase = .opened ∧ s.dec.seen = true ∧ s.dec.off ≠ 0 ∧
      execDecEnd s = .next (raise .dec .incomplete s)) ∨
    (s.dec.phase = .opened ∧ s.dec.seen = true ∧ s.dec.off = 0 ∧ execDecEnd s = .next (deliver .dec s)) := by
  by_cases hp : s.dec.phase = .opened
  · rw [execDecEnd, whenOpen_of_opened (b := .dec) (s := s) hp]
    cases hs : s.dec.seen <;> by_cases ho : s.dec.off = 0#6 <;> simp [hp, ho]
  · exact .inl ⟨hp, whenOpen_of_closed (b := .dec) (s := s) hp⟩

/-! ### The memory keeps its form -/

theorem memory_wf_iff {s : State} :
    Memory.wf s = true ↔ fits s.cfg.encCap s.enc.obuf.length = true ∧ fits s.cfg.decCap s.dec.rbuf.length = true := by
  simp [Memory.wf]

theorem fits_zero (cap : Option Nat) : fits cap 0 = true := fits_iff.2 fun _ _ => Nat.zero_le _

theorem reset_memory_wf : Memory.wf State.reset = true := rfl

theorem raise_memory_wf {s : State} (h : Memory.wf s = true) (b : Block) (k : ErrKind) :
    Memory.wf (raise b k s) = true := by
  rw [memory_wf_iff] at h ⊢
  cases b <;> simp [h, fits_zero]

theorem clear_memory_wf {s : State} (h : Memory.wf s = true) (b : Block) : Memory.wf (clear b s) = true := by
  rw [memory_wf_iff] at h ⊢
  cases b <;> simp [h, fits_zero, Enc.reset, Dec.reset]

theorem deliver_memory_wf {s : State} (h : Memory.wf s = true) (b : Block) : Memory.wf (deliver b s) = true := by
  rw [memory_wf_iff] at h ⊢
  cases b <;> simp [h]

theorem appendBytes_memory_wf {s t : State} {bytes : List Byte} (h : Memory.wf s = true)
    (ht : appendBytes bytes s = .next t) : Memory.wf t = true := by
  rw [memory_wf_iff] at h ⊢
  rcases appendBytes_cases bytes s with ⟨hf, he⟩ | ⟨-, he⟩ <;> rw [he] at ht
  · cases ht; exact ⟨by simpa using hf, h.2⟩
  · cases ht

theorem appendWord_memory_wf {s t : State} {w : Word} (h : Memory.wf s = true)
    (ht : appendWord w s = .next t) : Memory.wf t = true := by
  rw [memory_wf_iff] at h ⊢
  rcases appendWord_cases w s with ⟨hf, he⟩ | ⟨-, he⟩ <;> rw [he] at ht
  · cases ht; exact ⟨h.1, by simpa using hf⟩
  · cases ht

/-! ### The read ports -/

theorem readPort_done (n i : Nat) (buf : List (BitVec n)) (h : i < buf.length) :
    readPort n .done buf i = { valid := true, data := buf[i] } := by
  simp [readPort, h]

theorem readPort_outside (n i : Nat) (p : Phase) (buf : List (BitVec n)) (h : p = .done → buf.length ≤ i) :
    readPort n p buf i = { valid := false, data := 0 } := by
  cases p
  · rfl
  · simp [readPort, List.getElem?_eq_none (h rfl)]
  · rfl

/-! ### The step -/

theorem fitsLen_iff {cap : Option Nat} {i : Nat} : fitsLen cap i = true ↔ ∀ c, cap = some c → i < 2 ^ bitLen c := by
  cases cap <;> simp [fitsLen, lenBits]

/-- Index 0, which every presented operation carries, fits every read port. -/
@[simp] theorem fitsLen_zero (cap : Option Nat) : fitsLen cap 0 = true := fitsLen_iff.2 fun _ _ => by positivity

@[simp] theorem idle_fitsIndices (cfg : Config) : Cycle.idle.fitsIndices cfg = true := by
  simp [Cycle.fitsIndices, Cycle.idle]

@[simp] theorem presentOp_fitsIndices (cfg cfg' : Config) (i : Instr) : (presentOp cfg' i).fitsIndices cfg = true := by
  cases i <;> exact idle_fitsIndices cfg

@[simp] theorem tableCycle_fitsIndices (cfg cfg' : Config) (b : Block) (w : Nat) :
    (tableCycle cfg' b w).fitsIndices cfg = true := by cases b <;> exact idle_fitsIndices cfg

/-- Every index of a result within its capacity has the width of the read index, and so has the length. -/
theorem fitsLen_of_fits {cap : Option Nat} {n : Nat} (h : fits cap n = true) : fitsLen cap n = true :=
  fitsLen_iff.2 fun c hc => bitLen_le_iff.1 ((bitLen_le_iff.2 ((fits_iff.1 h c hc).trans_lt (bitLen_le_iff.1 le_rfl))))

theorem wideIndex_eq_none {s : State} : wideIndex s = none ↔ s.cycle.fitsIndices s.cfg = true := by
  simp only [wideIndex, Cycle.fitsIndices, Bool.and_eq_true]
  split_ifs with h h' <;> simp_all

/-- A read index that no host can present stops the step. -/
theorem step_of_wideIndex {s : State} {b : Block} (hr : s.cycle.rst = false) (hw : wideIndex s = some b) :
    step s = .fault (.indexTooWide b) := by
  simp [step, runCycle, hr, hw]

/-- With indices that fit, a cycle without reset is the two presented operations. -/
theorem step_of_fitsIndices {s : State} (hr : s.cycle.rst = false) (hf : s.cycle.fitsIndices s.cfg = true) :
    step s = andThen (runPresented exec .enc (presented .enc s) s.advance) fun t =>
      runPresented exec .dec (presented .dec s) t := by
  simp [step, runCycle, hr, wideIndex_eq_none.2 hf]

/-- Everything a step that goes on has done: reset, or the operation of each port on the state past the cycle. -/
theorem step_cases {s t : State} (h : step s = .next t) :
    (s.cycle.rst = true ∧ t = resetBlocks s.advance) ∨
    (s.cycle.rst = false ∧ s.cycle.fitsIndices s.cfg = true ∧ ∃ i j u, presented .enc s = .ok i ∧ presented .dec s = .ok j ∧
      exec i s.advance = .next u ∧ exec j u = .next t) := by
  cases hr : s.cycle.rst
  · cases hf : wideIndex s with
    | some b => rw [step_of_wideIndex hr hf] at h; cases h
    | none =>
    have hf := wideIndex_eq_none.1 hf
    rw [step_of_fitsIndices hr hf] at h
    obtain ⟨u, hu, ht⟩ := andThen_eq_next.1 h
    refine .inr ⟨rfl, hf, ?_⟩
    cases hi : presented .enc s with
    | error e => cases e; rw [hi] at hu; cases hu
    | ok i =>
      cases hj : presented .dec s with
      | error e => cases e; rw [hj] at ht; cases ht
      | ok j => exact ⟨i, j, u, rfl, rfl, by rw [hi] at hu; exact hu, by rw [hj] at ht; exact ht⟩
  · refine .inl ⟨rfl, ?_⟩
    simp only [step, runCycle, hr, if_true] at h
    injection h with h; exact h.symm

end Sys2Proof.Machine
end

