-- ==== Sys2Proof/Laws/PerInstr.lean ====
section
/-! SUPPORT. Per operation: its encoding fits the command word of its port (30_encoding.md R77, R78). -/

namespace Sys2Proof.Laws.EncodeFits

/-- The word of a well-formed operation has no bit above its port's width. -/
def Statement (i : Instr) : Prop :=
  ∀ cfg : Config, i.wellFormed cfg = true → encode cfg i < 2 ^ wordBits cfg i.block

theorem of_data (i : Instr) : Statement i := by
  intro cfg h
  have hd := Instr.data_lt h
  have hc := i.op.code_lt
  rw [encode, code_or_data _ hd, wordBits, Nat.pow_add]
  nlinarith

theorem encNop : Statement .encNop := of_data _
theorem encPush (v : Nat) : Statement (.encPush v) := of_data _
theorem encEnd : Statement .encEnd := of_data _
theorem encClr : Statement .encClr := of_data _
theorem decNop : Statement .decNop := of_data _
theorem decPush (b : Byte) : Statement (.decPush b) := of_data _
theorem decEnd : Statement .decEnd := of_data _
theorem decClr : Statement .decClr := of_data _

end Sys2Proof.Laws.EncodeFits
end

