-- ==== Sys2Proof/Laws/Step.lean ====
section
/-! SUPPORT. Everything one operation, and one step, can do. -/

namespace Sys2Proof.Machine

/-- The effects an operation has when it goes on, one case each. -/
inductive Effect (s : State) : Instr → State → Prop where
  | encNop : Effect s .encNop s
  | encDiscarded (v : Nat) (closed : s.enc.phase ≠ .opened) : Effect s (.encPush v) s
  | encRaised (v : Nat) (opened : s.enc.phase = .opened) (above : maxValue < v) :
      Effect s (.encPush v) (raise .enc .argument s)
  | encAppended (v : Nat) (opened : s.enc.phase = .opened) (inRange : v ≤ maxValue)
      (fit : fits s.cfg.encCap (s.enc.obuf.length + (encodeOne v).length) = true) :
      Effect s (.encPush v) { s with enc := { s.enc with obuf := s.enc.obuf ++ encodeOne v } }
  | encEndDiscarded (closed : s.enc.phase ≠ .opened) : Effect s .encEnd s
  | encDelivered (opened : s.enc.phase = .opened) : Effect s .encEnd (deliver .enc s)
  | encCleared : Effect s .encClr (clear .enc s)
  | decNop : Effect s .decNop s
  | decDiscarded (b : Byte) (closed : s.dec.phase ≠ .opened) : Effect s (.decPush b) s
  | decRaised (b : Byte) (opened : s.dec.phase = .opened) (above : 32 < s.dec.off.toNat + nextMsb s b) :
      Effect s (.decPush b) (raise .dec .overflow (latchGroup b s))
  | decContinued (b : Byte) (opened : s.dec.phase = .opened) (pass : s.dec.off.toNat + nextMsb s b ≤ 32)
      (cont : contFlag b = true) :
      Effect s (.decPush b) (continueNumber (accumulate s.dec.acc (group b)) (latchGroup b s))
  | decCompleted (b : Byte) (opened : s.dec.phase = .opened) (pass : s.dec.off.toNat + nextMsb s b ≤ 32)
      (terminal : contFlag b = false) (fit : fits s.cfg.decCap (s.dec.rbuf.length + 1) = true) :
      Effect s (.decPush b)
        { s with dec := { (latchGroup b s).dec with
            acc := 0, off := 0, rbuf := s.dec.rbuf ++ [accumulate s.dec.acc (group b)] } }
  | decEndDiscarded (closed : s.dec.phase ≠ .opened) : Effect s .decEnd s
  | decEmpty (opened : s.dec.phase = .opened) (unseen : s.dec.seen = false) :
      Effect s .decEnd (raise .dec .argument s)
  | decIncomplete (opened : s.dec.phase = .opened) (seen : s.dec.seen = true) (inside : s.dec.off ≠ 0) :
      Effect s .decEnd (raise .dec .incomplete s)
  | decDelivered (opened : s.dec.phase = .opened) (seen : s.dec.seen = true) (boundary : s.dec.off = 0) :
      Effect s .decEnd (deliver .dec s)
  | decCleared : Effect s .decClr (clear .dec s)

/-- An operation that goes on has one of the effects. -/
theorem effect_of_exec {i : Instr} {s t : State} (h : exec i s = .next t) : Effect s i t := by
  cases i with
  | encNop => cases h; exact .encNop
  | encPush v =>
    rcases execEncPush_cases v s with ⟨hp, e⟩ | ⟨hp, hv, e⟩ | ⟨hp, hv, e⟩
    · cases e.symm.trans h; exact .encDiscarded v hp
    · cases e.symm.trans h; exact .encRaised v hp hv
    · rcases appendBytes_cases (encodeOne v) s with ⟨hf, e'⟩ | ⟨-, e'⟩
      · cases (e.trans e').symm.trans h; exact .encAppended v hp hv hf
      · cases (e.trans e').symm.trans h
  | encEnd =>
    rcases execEncEnd_cases s with ⟨hp, e⟩ | ⟨hp, e⟩
    · cases e.symm.trans h; exact .encEndDiscarded hp
    · cases e.symm.trans h; exact .encDelivered hp
  | encClr => cases h; exact .encCleared
  | decNop => cases h; exact .decNop
  | decPush b =>
    rcases execDecPush_cases b s with ⟨hp, e⟩ | ⟨hp, ho, e⟩ | ⟨hp, ho, hc, e⟩ | ⟨hp, ho, hc, e⟩
    · cases e.symm.trans h; exact .decDiscarded b hp
    · cases e.symm.trans h; exact .decRaised b hp ho
    · cases e.symm.trans h; exact .decContinued b hp ho hc
    · rcases completeNumber_cases (accumulate s.dec.acc (group b)) (latchGroup b s) with ⟨hf, e'⟩ | ⟨-, e'⟩
      · cases (e.trans e').symm.trans h; exact .decCompleted b hp ho hc hf
      · cases (e.trans e').symm.trans h
  | decEnd =>
    rcases execDecEnd_cases s with ⟨hp, e⟩ | ⟨hp, hs, e⟩ | ⟨hp, hs, ho, e⟩ | ⟨hp, hs, ho, e⟩
    · cases e.symm.trans h; exact .decEndDiscarded hp
    · cases e.symm.trans h; exact .decEmpty hp hs
    · cases e.symm.trans h; exact .decIncomplete hp hs ho
    · cases e.symm.trans h; exact .decDelivered hp hs ho
  | decClr => cases h; exact .decCleared

/-- Each effect is what the operation does: the inversion loses nothing. -/
theorem exec_of_effect {i : Instr} {s t : State} (h : Effect s i t) : exec i s = .next t := by
  cases h with
  | encNop => rfl
  | encDiscarded v hp => exact show execEncPush v s = _ from whenOpen_of_closed (b := .enc) hp
  | encRaised v hp hv =>
    rcases execEncPush_cases v s with ⟨h', -⟩ | ⟨-, -, e⟩ | ⟨-, h', -⟩
    · exact absurd hp h'
    · exact e
    · omega
  | encAppended v hp hv hf =>
    rcases execEncPush_cases v s with ⟨h', -⟩ | ⟨-, h', -⟩ | ⟨-, -, e⟩
    · exact absurd hp h'
    · omega
    · exact e.trans (if_pos hf)
  | encEndDiscarded hp => exact show execEncEnd s = _ from whenOpen_of_closed (b := .enc) hp
  | encDelivered hp => exact show execEncEnd s = _ from whenOpen_of_opened (b := .enc) (s := s) hp
  | encCleared => rfl
  | decNop => rfl
  | decDiscarded b hp => exact show execDecPush b s = _ from whenOpen_of_closed (b := .dec) hp
  | decRaised b hp ho =>
    rcases execDecPush_cases b s with ⟨h', -⟩ | ⟨-, -, e⟩ | ⟨-, h', -⟩ | ⟨-, h', -⟩
    · exact absurd hp h'
    · exact e
    · omega
    · omega
  | decContinued b hp ho hc =>
    rcases execDecPush_cases b s with ⟨h', -⟩ | ⟨-, h', -⟩ | ⟨-, -, -, e⟩ | ⟨-, -, h', -⟩
    · exact absurd hp h'
    · omega
    · exact e
    · rw [hc] at h'; cases h'
  | decCompleted b hp ho hc hf =>
    rcases execDecPush_cases b s with ⟨h', -⟩ | ⟨-, h', -⟩ | ⟨-, -, h', -⟩ | ⟨-, -, -, e⟩
    · exact absurd hp h'
    · omega
    · rw [hc] at h'; cases h'
    · exact e.trans (if_pos hf)
  | decEndDiscarded hp => exact show execDecEnd s = _ from whenOpen_of_closed (b := .dec) hp
  | decEmpty hp hs =>
    rcases execDecEnd_cases s with ⟨h', -⟩ | ⟨-, -, e⟩ | ⟨-, h', -⟩ | ⟨-, h', -⟩
    · exact absurd hp h'
    · exact e
    · rw [hs] at h'; cases h'
    · rw [hs] at h'; cases h'
  | decIncomplete hp hs ho =>
    rcases execDecEnd_cases s with ⟨h', -⟩ | ⟨-, h', -⟩ | ⟨-, -, -, e⟩ | ⟨-, -, h', -⟩
    · exact absurd hp h'
    · rw [hs] at h'; cases h'
    · exact e
    · exact absurd h' ho
  | decDelivered hp hs ho =>
    rcases execDecEnd_cases s with ⟨h', -⟩ | ⟨-, h', -⟩ | ⟨-, -, h', -⟩ | ⟨-, -, -, e⟩
    · exact absurd hp h'
    · rw [hs] at h'; cases h'
    · exact absurd ho h'
    · exact e
  | decCleared => rfl

/-- No operation reads or writes the presented signals: they may be exchanged under it. -/
theorem exec_withPending (i : Instr) (s : State) (p : List Cycle) :
    exec i { s with pending := p } = andThen (exec i s) fun t => .next { t with pending := p } := by
  by_cases he : s.enc.phase = .opened <;> by_cases hd : s.dec.phase = .opened <;> cases i <;>
    simp [exec, execEncNop, execEncPush, execEncEnd, execEncClr, execDecNop, execDecPush, execDecEnd, execDecClr,
      whenOpen, he, hd, appendBytes, completeNumber, appendWord, latchGroup, raise, deliver, clear,
      continueNumber] <;>
    split_ifs <;> rfl

end Sys2Proof.Machine
end

