-- ==== Sys2Proof/Laws/Streams.lean ====
section
/-! SUPPORT. The loop of `decode` byte by byte and number by number, and a stream cut into its numbers. -/

namespace Sys2Proof.Machine

/-- Every byte has its continuation flag set. -/
abbrev AllCont (c : List Byte) : Prop := ∀ y ∈ c, contFlag y = true

/-! ### Runs -/

/-- A stream is all continuation bytes, or has a first terminal byte. -/
theorem stream_cases (bs : List Byte) :
    AllCont bs ∨ ∃ c t rest, bs = c ++ t :: rest ∧ AllCont c ∧ contFlag t = false := by
  induction bs with
  | nil => exact .inl (by simp [AllCont])
  | cons b bs ih =>
    cases hb : contFlag b with
    | false => exact .inr ⟨[], b, bs, rfl, by simp [AllCont], hb⟩
    | true =>
      rcases ih with h | ⟨c, t, rest, rfl, hc, ht⟩
      · exact .inl (List.forall_mem_cons.2 ⟨hb, h⟩)
      · exact .inr ⟨b :: c, t, rest, rfl, List.forall_mem_cons.2 ⟨hb, hc⟩, ht⟩

/-- An encoded number is continuation bytes, then one terminal byte (R71). -/
theorem isNumber_iff {n : List Byte} :
    isNumber n = true ↔ ∃ c t, n = c ++ [t] ∧ AllCont c ∧ contFlag t = false := by
  induction n with
  | nil => simp [isNumber]
  | cons b n ih =>
    cases n with
    | nil =>
      simp only [isNumber, Bool.not_eq_true']
      refine ⟨fun h => ⟨[], b, rfl, by simp [AllCont], h⟩, ?_⟩
      rintro ⟨c, t, e, -, ht⟩
      cases c with
      | nil => simp at e; rw [e]; exact ht
      | cons _ c => simp at e
    | cons a n =>
      rw [isNumber, Bool.and_eq_true, ih]
      · constructor
        · rintro ⟨hb, c, t, e, hc, ht⟩
          exact ⟨b :: c, t, by rw [e]; rfl, List.forall_mem_cons.2 ⟨hb, hc⟩, ht⟩
        · rintro ⟨c, t, e, hc, ht⟩
          cases c with
          | nil => simp at e
          | cons x c =>
            simp only [List.cons_append, List.cons.injEq] at e
            exact ⟨e.1 ▸ hc x (by simp), c, t, e.2, fun y hy => hc y (by simp [hy]), ht⟩
      · simp

theorem isNumber_ne_nil {n : List Byte} (h : isNumber n = true) : n ≠ [] := by
  rintro rfl; simp [isNumber] at h

theorem isNumber_of_allCont {c : List Byte} (h : AllCont c) : isNumber c = false := by
  rw [← Bool.not_eq_true, isNumber_iff]
  rintro ⟨c', t, rfl, -, ht⟩
  rw [h t (by simp)] at ht; cases ht

theorem runsOf_allCont {c : List Byte} (h : AllCont c) (hn : c ≠ []) : runsOf c = [c] := by
  induction c with
  | nil => exact absurd rfl hn
  | cons b c ih =>
    rw [runsOf, if_pos (h b (by simp))]
    by_cases hc : c = []
    · subst hc; rfl
    · rw [ih (fun y hy => h y (by simp [hy])) hc]

/-- An encoded number at the head of a stream is its first run (R74). -/
theorem runsOf_number {n rest : List Byte} (hn : isNumber n = true) : runsOf (n ++ rest) = n :: runsOf rest := by
  obtain ⟨c, t, rfl, hc, ht⟩ := isNumber_iff.1 hn
  clear hn
  induction c with
  | nil => rw [List.nil_append, List.singleton_append, runsOf, if_neg (by simp [ht])]
  | cons b c ih =>
    rw [List.cons_append, List.cons_append, runsOf, if_pos (hc b (by simp)), ih fun y hy => hc y (by simp [hy])]

/-- Induction over a stream, a number at a time; the last run may be open. -/
theorem stream_induction {P : List Byte → Prop} (empty : P []) (open_ : ∀ c, AllCont c → c ≠ [] → P c)
    (number : ∀ n rest, isNumber n = true → P rest → P (n ++ rest)) : ∀ bs, P bs := by
  intro bs
  generalize hk : bs.length = k
  induction k using Nat.strong_induction_on generalizing bs with
  | _ k ih =>
    rcases stream_cases bs with h | ⟨c, t, rest, rfl, hc, ht⟩
    · by_cases hb : bs = []
      · rw [hb]; exact empty
      · exact open_ bs h hb
    · have := number (c ++ [t]) rest (isNumber_iff.2 ⟨c, t, rfl, hc, ht⟩)
        (ih rest.length (by subst hk; simp; omega) rest rfl)
      simpa using this

/-- The value of a run, split at any byte (R72). -/
theorem runValue_append (a b : List Byte) :
    runValue (a ++ b) = runValue a * 128 ^ b.length + runValue b := by
  induction a with
  | nil => simp [runValue]
  | cons x a ih => simp only [List.cons_append, runValue, ih, List.length_append, Nat.pow_add]; ring

/-! ### The loop of `decode` -/

/-- One byte of the loop, with the masks and shifts read as arithmetic (R154). -/
theorem decodeLoop_cons (latch : MsbLatch) (b : Byte) (bs : List Byte) (acc off msb : Nat) (res : List Nat) :
    decodeLoop latch (b :: bs) acc off msb res =
      if 32 < off + msbAfter latch acc off msb (group b) then .err .overflow
      else if contFlag b = true then
        decodeLoop latch bs (acc * 128 + group b) (off + 7) (msbAfter latch acc off msb (group b)) res
      else decodeLoop latch bs 0 0 (msbAfter latch acc off msb (group b)) (res ++ [acc * 128 + group b]) := by
  have hand : b.toNat &&& 0x7F = group b := by rw [group_eq]; exact Nat.and_two_pow_sub_one_eq_mod b.toNat 7
  have hor : (acc <<< 7) ||| group b = acc * 128 + group b := by
    have := Nat.two_pow_add_eq_or_of_lt (i := 7) (b := group b) (group_lt b) acc
    rw [Nat.shiftLeft_eq, Nat.mul_comm, ← this]
  rw [decodeLoop]
  simp only [hand, hor, gt_iff_lt, byte_and_contMask]

/-- At a number boundary the old `msb` does not matter: the first byte latches it. -/
theorem decodeLoop_boundary (latch : MsbLatch) (bs : List Byte) (m m' : Nat) (res : List Nat) :
    decodeLoop latch bs 0 0 m res = decodeLoop latch bs 0 0 m' res := by
  cases bs with
  | nil => rfl
  | cons b bs =>
    have : msbAfter latch 0 0 m (group b) = msbAfter latch 0 0 m' (group b) := by cases latch <;> rfl
    rw [decodeLoop_cons, decodeLoop_cons, this]

theorem decodeSeq_eq (latch : MsbLatch) {bs : List Byte} (h : bs ≠ []) :
    decodeSeq latch bs = decodeLoop latch bs 0 0 0 [] := by
  cases bs with
  | nil => exact absurd rfl h
  | cons b bs => rfl

/-- Continuation bytes either overflow, whatever follows, or go into the accumulator and the offset. -/
theorem decodeLoop_allCont (latch : MsbLatch) (c : List Byte) (hc : AllCont c) (acc off msb : Nat) : ∃ m',
    (∀ bs res, decodeLoop latch (c ++ bs) acc off msb res = .err .overflow) ∨
    (∀ bs res, decodeLoop latch (c ++ bs) acc off msb res =
      decodeLoop latch bs (acc * 128 ^ c.length + runValue c) (off + 7 * c.length) m' res) := by
  induction c generalizing acc off msb with
  | nil => exact ⟨msb, .inr (by simp [runValue])⟩
  | cons y c ih =>
    by_cases h : 32 < off + msbAfter latch acc off msb (group y)
    · exact ⟨0, .inl fun bs res => by rw [List.cons_append, decodeLoop_cons, if_pos h]⟩
    · obtain ⟨m', hm | hm⟩ := ih (fun z hz => hc z (by simp [hz])) (acc * 128 + group y) (off + 7)
        (msbAfter latch acc off msb (group y))
      · exact ⟨0, .inl fun bs res => by
          rw [List.cons_append, decodeLoop_cons, if_neg h, if_pos (hc y (by simp)), hm]⟩
      · refine ⟨m', .inr fun bs res => ?_⟩
        rw [List.cons_append, decodeLoop_cons, if_neg h, if_pos (hc y (by simp)), hm]
        simp only [List.length_cons, runValue]
        congr 1
        · rw [Nat.pow_succ]; ring
        · omega

/-- A number at a boundary overflows, whatever follows, or appends its value and leaves the loop at a boundary. -/
theorem decodeLoop_number (latch : MsbLatch) {n : List Byte} (hn : isNumber n = true) :
    (∀ m bs res, decodeLoop latch (n ++ bs) 0 0 m res = .err .overflow) ∨
    (∀ m bs res, decodeLoop latch (n ++ bs) 0 0 m res = decodeLoop latch bs 0 0 0 (res ++ [runValue n])) := by
  obtain ⟨c, t, rfl, hc, ht⟩ := isNumber_iff.1 hn
  obtain ⟨m', h | h⟩ := decodeLoop_allCont latch c hc 0 0 0
  · exact .inl fun m bs res => by rw [decodeLoop_boundary latch _ m 0, List.append_assoc, h]
  · by_cases ho : 32 < 0 + 7 * c.length +
        msbAfter latch (0 * 128 ^ c.length + runValue c) (0 + 7 * c.length) m' (group t)
    · exact .inl fun m bs res => by
        rw [decodeLoop_boundary latch _ m 0, List.append_assoc, h, List.singleton_append, decodeLoop_cons, if_pos ho]
    · refine .inr fun m bs res => ?_
      rw [decodeLoop_boundary latch _ m 0, List.append_assoc, h, List.singleton_append, decodeLoop_cons, if_neg ho,
        if_neg (by simp [ht]), decodeLoop_boundary latch _ _ 0]
      congr 3
      rw [runValue_append]; simp [runValue]

/-! ### The bytes of one number -/

/-- The loop of `EncodeOne` gives continuation bytes only (R101 step 2). -/
theorem encodeLoop_allCont (n r : Nat) : AllCont (encodeLoop n r []) := by
  induction n generalizing r with
  | zero => simp [AllCont, encodeLoop]
  | succ n ih =>
    rcases Nat.eq_zero_or_pos r with rfl | h
    · simp [AllCont, encodeLoop]
    · rw [encodeLoop_succ_append n h]
      intro y hy
      rcases List.mem_append.1 hy with hy | hy
      · exact ih _ y hy
      · rw [List.mem_singleton.1 hy]; exact contFlag_contByte (Nat.mod_lt _ (by norm_num))

/-- The continuation bytes of `EncodeOne` carry the upper bits. -/
theorem runValue_encodeLoop {n r : Nat} (h : r < 128 ^ n) : runValue (encodeLoop n r []) = r := by
  induction n generalizing r with
  | zero => simp at h; subst h; simp [encodeLoop, runValue]
  | succ n ih =>
    rcases Nat.eq_zero_or_pos r with rfl | hr
    · simp [encodeLoop, runValue]
    · have h' : r / 128 < 128 ^ n := by rw [Nat.div_lt_iff_lt_mul (by norm_num), ← Nat.pow_succ]; exact h
      rw [encodeLoop_succ_append n hr, runValue_append, ih h']
      simp [runValue, group_contByte (Nat.mod_lt r (show 128 > 0 by norm_num))]
      omega

end Sys2Proof.Machine
end

