-- ==== Sys2Proof/Tests/Slice0.lean ====
section
/-! SUPPORT. Tests against the worked examples of spec/95_test_vectors.md, and a witness of the hypotheses of each
statement of Certificates/Slice0/Obligations.lean that has any. -/

namespace Sys2Proof.Tests.Slice0

open Sys2Proof Sys2Proof.Machine

/-! ### Small states -/

/-- The state after reset with the given registers of `ENC`. -/
def withEnc (phase : Phase) (err : ErrKind) (obuf : List Byte) : State :=
  { State.reset with enc := { phase, err, obuf } }

/-- The state after reset with the given registers of `DEC`, a call being open. -/
def withDec (seen : Bool) (acc : Word) (off : BitVec 6) (msb : BitVec 3) (rbuf : List Word) : State :=
  { State.reset with dec := { Dec.reset with seen, acc, off, msb, rbuf } }

/-- `s` under `MSB_LATCH` = `ACC_ZERO`. -/
def underAccZero (s : State) : State := { s with cfg := { s.cfg with msbLatch := .accZero } }

/-- `s` with the given capacities. -/
def withCaps (encCap decCap : Option Nat) (s : State) : State := { s with cfg := { s.cfg with encCap, decCap } }

/-- The next state, where there is one. -/
def nextOf : Result → Option State
  | .next s => some s
  | .fault _ => none
  | .refused _ => none

/-! ### Well-formedness refuses ill-formed terms -/

theorem test_wellFormed_refuses_wide_operand :
    (Instr.encPush (2 ^ 33)).wellFormed Config.normative = false ∧
    (Instr.encPush (2 ^ 33 - 1)).wellFormed Config.normative = true := by decide

theorem test_config_refuses_narrow_data : ({ Config.normative with wIn := 32 } : Config).wf = false := by decide

theorem test_cycle_refuses_wide_words :
    ({ Cycle.idle with encWord := 2 ^ 35 } : Cycle).fitsPorts Config.normative = false ∧
    ({ Cycle.idle with decWord := 2 ^ 10 } : Cycle).fitsPorts Config.normative = false := by decide

/-- R29, R51: a capacity of 4 needs three bits, so 7 is an index and 8 is none; a capacity of 0 needs none. -/
theorem test_cycle_refuses_wide_index :
    ({ Cycle.idle with encRdIdx := 7 } : Cycle).fitsPorts { Config.normative with encCap := some 4 } = true ∧
    ({ Cycle.idle with encRdIdx := 8 } : Cycle).fitsPorts { Config.normative with encCap := some 4 } = false ∧
    Cycle.idle.fitsPorts { Config.normative with decCap := some 0 } = true ∧
    ({ Cycle.idle with decRdIdx := 1 } : Cycle).fitsPorts { Config.normative with decCap := some 0 } = false := by decide

theorem test_memory_over_capacity_is_not_wf :
    Memory.wf (withCaps (some 1) none (withEnc .opened .none [0x81, 0x00])) = false := by decide

/-! ### Decoding: words written out from R77, R78 and R80, code above data -/

theorem test_word_encNop : decodeTableWord 40 0b00_000000000000000000000000000000000 = some .encNop := by decide
theorem test_word_encPush :
    decodeTableWord 40 0b01_000000000000000000100000000000000 = some (.encPush 0x4000) := by decide
theorem test_word_encEnd : decodeTableWord 40 0b10_000000000000000000000000000000000 = some .encEnd := by decide
theorem test_word_encClr : decodeTableWord 40 0b11_000000000000000000000000000000000 = some .encClr := by decide
theorem test_word_decNop : decodeTableWord 16 0b00_00000000 = some .decNop := by decide
theorem test_word_decPush : decodeTableWord 16 0b01_10000001 = some (.decPush 0x81) := by decide
theorem test_word_decEnd : decodeTableWord 16 0b10_00000000 = some .decEnd := by decide
theorem test_word_decClr : decodeTableWord 16 0b11_00000000 = some .decClr := by decide

/-- R82: the data field of `NOP`, `END` and `CLR` is ignored, at its largest value too. -/
theorem test_word_data_ignored :
    decodeTableWord 40 0x1FFFFFFFF = some .encNop ∧ decodeTableWord 40 0x5FFFFFFFF = some .encEnd ∧
    decodeTableWord 16 0x2FF = some .decEnd ∧ decodeTableWord 16 0x3FF = some .decClr := by decide

/-- No port takes a number with more bits than it has. -/
theorem test_word_too_wide : decodeTableWord 40 0x800000000 = none ∧ decodeTableWord 16 0x400 = none := by decide

/-! ### `ENC` -/

/-- P1 step 3 (source vector S5). -/
theorem test_encPush_appends :
    (nextOf (exec (.encPush 0x123456) (withEnc .opened .none [0x81, 0x80, 0x00]))).map (·.enc) =
      some { phase := .opened, err := .none, obuf := [0x81, 0x80, 0x00, 0xC8, 0xE8, 0x56] } := by decide

/-- P5 steps 3 and 4: 2³² is out of range; then `PUSH` is discarded. -/
theorem test_encPush_out_of_range :
    (nextOf (exec (.encPush 0x100000000) (withEnc .opened .none [0x7F]))).map (·.enc) =
      some { phase := .err, err := .argument, obuf := [] } ∧
    (nextOf (exec (.encPush 5) (withEnc .err .argument []))).map (·.enc) =
      some { phase := .err, err := .argument, obuf := [] } := by decide

/-- P1 step 4, with the outputs and the reads of its end state. -/
theorem test_encEnd_delivers :
    (nextOf (exec .encEnd (withEnc .opened .none [0x81, 0x80, 0x00]))).map
        (fun t => (t.encOutputs.phase, t.encOutputs.err, t.encOutputs.len, (t.encRead 1).data, (t.encRead 3).valid)) =
      some (1, 0, 3, 0x80, false) := by decide

/-- P6 step 2: an empty call is no error. -/
theorem test_encEnd_empty :
    (nextOf (exec .encEnd State.reset)).map (fun t => (t.encOutputs.phase, t.encOutputs.len)) = some (1, 0) := by decide

/-- `CLR` recovers from an error (R106, R188). -/
theorem test_encClr_recovers :
    (nextOf (exec .encClr (withEnc .err .argument []))).map (·.enc) = some Enc.reset := by decide

theorem test_encNop_keeps :
    (nextOf (exec .encNop (withEnc .done .none [0x7F]))).map (·.enc) =
      some { phase := .done, err := .none, obuf := [0x7F] } := by decide

/-! ### `DEC` -/

/-- The last `PUSH` of T1 (28 + 5 overflows) and of T2 (28 + 4 is exactly 32 and passes). -/
theorem test_decPush_limit :
    (nextOf (exec (.decPush 0x7F) (withDec true 0x03FFFFFF 28 5 []))).map (·.dec) =
      some { phase := .err, err := .overflow, seen := true, acc := 0x03FFFFFF, off := 28, msb := 5, rbuf := [] } ∧
    (nextOf (exec (.decPush 0x7F) (withDec true 0x01FFFFFF 28 4 []))).map (·.dec) =
      some { phase := .opened, err := .none, seen := true, acc := 0, off := 0, msb := 4, rbuf := [0xFFFFFFFF] } := by
  decide

/-- The second `PUSH` of T3 and of T4: after a first group of 0, `ACC_ZERO` latches again. -/
theorem test_decPush_latch :
    (nextOf (exec (.decPush 0xFF) (withDec true 0 7 0 []))).map (·.dec) =
      some { phase := .opened, err := .none, seen := true, acc := 0x7F, off := 14, msb := 0, rbuf := [] } ∧
    (nextOf (exec (.decPush 0xFF) (underAccZero (withDec true 0 7 0 [])))).map (·.dec) =
      some { phase := .opened, err := .none, seen := true, acc := 0x7F, off := 14, msb := 7, rbuf := [] } := by
  decide

/-- P4 step 3 and P6 step 4. -/
theorem test_decEnd_errors :
    (nextOf (exec .decEnd (withDec true 0x7F 7 7 []))).map (·.dec) =
      some { phase := .err, err := .incomplete, seen := true, acc := 0x7F, off := 7, msb := 7, rbuf := [] } ∧
    (nextOf (exec .decEnd State.reset)).map (·.dec) =
      some { phase := .err, err := .argument, seen := false, acc := 0, off := 0, msb := 0, rbuf := [] } := by decide

/-- P2 step 8, with the outputs and the reads of its end state. -/
theorem test_decEnd_delivers :
    (nextOf (exec .decEnd (withDec true 0 0 7 [0x4000, 0x123456]))).map
        (fun t => (t.decOutputs.phase, t.decOutputs.err, t.decOutputs.len, (t.decRead 1).data, (t.decRead 2).valid)) =
      some (1, 0, 2, 0x123456, false) := by decide

/-- P4 step 5. -/
theorem test_decClr_recovers :
    (nextOf (exec .decClr
        { State.reset with dec :=
          { phase := .err, err := .incomplete, seen := true, acc := 0x7F, off := 7, msb := 7, rbuf := [] } })).map
      (·.dec) = some Dec.reset := by decide

theorem test_decNop_keeps :
    (nextOf (exec .decNop (withDec true 0x7F 7 7 [1]))).map (·.dec) = some (withDec true 0x7F 7 7 [1]).dec := by decide

/-! ### The step -/

/-- The command words of P1 step 2 and P2 step 2, presented as the first operation after reset. -/
theorem test_step_from_reset :
    (nextOf (step (State.reset.withFetchWord 40 0x200004000))).map (·.enc.obuf) = some [0x81, 0x80, 0x00] ∧
    (nextOf (step (State.reset.withFetchWord 16 0x181))).map (fun t => (t.dec.acc, t.dec.off, t.dec.msb)) =
      some (1, 7, 1) := by decide

/-- R60, R210: an operation at each port in one cycle. -/
theorem test_step_both_ports :
    (nextOf (step { State.reset with pending := [{ Cycle.idle with encWord := 0x20000007F, decWord := 0x17F }] })).map
      (fun t => (t.enc.obuf, t.dec.rbuf)) = some ([0x7F], [0x7F]) := by decide

/-- The last index of a delivered result of capacity 1 is read in the cycle; index 1 has its one bit and is outside. -/
theorem test_read_index :
    (let s := withCaps (some 1) none (withEnc .done .none [0x7F])
     ({ s with pending := [Cycle.idle] } : State).encOutputs.rd = { valid := true, data := 0x7F } ∧
     ({ s with pending := [{ Cycle.idle with encRdIdx := 1 }] } : State).encOutputs.rd =
       { valid := false, data := 0 }) := by decide

/-! ### Witnesses: a concrete case of the hypotheses of each statement that has any -/

theorem witness_DecodeOfEncodeIsTheOperation :
    (Instr.encPush (2 ^ 33 - 1)).wellFormed Config.normative = true ∧
    (Instr.decPush 0xFF).wellFormed Config.normative = true := by decide

theorem witness_EveryCommandWordDecodes :
    2 ^ 35 - 1 < 2 ^ wordBits Config.normative .enc ∧ 2 ^ wordBits Config.normative .enc ≤ 2 ^ 35 ∧
    1023 < 2 ^ wordBits Config.normative .dec ∧ 2 ^ wordBits Config.normative .dec ≤ 1024 := by decide

theorem witness_IgnoredDataGivesOneOperation :
    0x2FF < 2 ^ wordBits Config.normative .dec ∧
    0x2FF / 2 ^ dataBits Config.normative .dec = 0x200 / 2 ^ dataBits Config.normative .dec ∧
    0x2FF / 2 ^ dataBits Config.normative .dec ≠ 1 := by decide

/-- One cycle with an operation at each port. -/
def bothPorts : State :=
  { State.reset with pending := [{ Cycle.idle with encWord := 0x20000007F, decWord := 0x17F }] }

theorem witness_StepRunsTheOperationAtEachPort :
    bothPorts.cycle.rst = false ∧ bothPorts.cycle.fitsIndices bothPorts.cfg = true ∧
    decode bothPorts.cfg .enc bothPorts.cycle.encWord = .ok (.encPush 0x7F) ∧
    decode bothPorts.cfg .dec bothPorts.cycle.decWord = .ok (.decPush 0x7F) := ⟨rfl, rfl, rfl, rfl⟩

/-- The clauses for a port that carries `NOP`. -/
theorem witness_StepRunsTheOperationAtEachPort_nop :
    State.reset.cycle.rst = false ∧ State.reset.cycle.fitsIndices State.reset.cfg = true ∧
    decode State.reset.cfg .enc State.reset.cycle.encWord = .ok .encNop ∧
    decode State.reset.cfg .dec State.reset.cycle.decWord = .ok .decNop := ⟨rfl, rfl, rfl, rfl⟩

theorem witness_PresentedCyclesRunTheOperations :
    ∀ i ∈ [Instr.encPush 0x4000, .encEnd, .decPush 0x7F, .decEnd], i.wellFormed State.reset.cfg = true := by decide

/-- One cycle with `rst` high and a number no port can take. -/
def resetCycle : State := { withEnc .err .argument [] with pending := [{ Cycle.idle with rst := true, encWord := 2 ^ 40 }] }

theorem witness_ResetWinsOverPresentedOperations : resetCycle.cycle.rst = true := by decide

theorem witness_IdleCyclesKeepEveryRegister :
    State.reset.pending = [] ∧
    ({ State.reset with pending := [Cycle.idle] } : State).pending = Cycle.idle :: [] := by decide

theorem witness_NopChangesNothing : 2 ^ 33 - 1 < 2 ^ Config.normative.wIn ∧ 255 < 2 ^ 8 := by decide

/-- Each phase and range clause of `ENC.PUSH`: a closed call, the values on both sides of the limit, a buffer of
exactly the capacity after the push, and one over it. -/
theorem witness_EncPushChecksThenAppends :
    0xFFFFFFFF < 2 ^ Config.normative.wIn ∧
    (withEnc .done .none []).enc.phase ≠ .opened ∧
    (State.reset.enc.phase = .opened ∧ 0xFFFFFFFF < 0x100000000) ∧
    ((withCaps (some 5) none State.reset).enc.phase = .opened ∧ 0xFFFFFFFF ≤ 0xFFFFFFFF ∧
      (withCaps (some 5) none State.reset).cfg.encCap = some 5 ∧
      (withCaps (some 5) none State.reset).enc.obuf.length + max 1 ((bitLen 0xFFFFFFFF + 6) / 7) ≤ 5) ∧
    ((withCaps (some 4) none State.reset).cfg.encCap = some 4 ∧
      4 < (withCaps (some 4) none State.reset).enc.obuf.length + max 1 ((bitLen 0xFFFFFFFF + 6) / 7)) := by decide

theorem witness_EncEndDeliversTheBytes :
    2 ^ 33 - 1 < 2 ^ Config.normative.wIn ∧ (withEnc .err .argument []).enc.phase ≠ .opened ∧
    (withEnc .opened .none [0x81, 0x00]).enc.phase = .opened ∧
    1 < (withEnc .opened .none [0x81, 0x00]).enc.obuf.length ∧
    (nextOf (exec .encEnd (withEnc .opened .none [0x81, 0x00]))).isSome = true := by decide

/-- Each clause of `DEC.PUSH`: a closed call; the first byte of a number; a sum of 33 and of exactly 32; both values
of the continuation flag; a buffer of exactly the capacity after the push, and one over it. -/
theorem witness_DecPushTakesTheFiveSteps :
    ({ State.reset with dec := { Dec.reset with phase := .done } } : State).dec.phase ≠ .opened ∧
    State.reset.dec.off.toNat = 0 ∧
    (let s := withDec true 0x03FFFFFF 28 5 []
     s.dec.phase = .opened ∧ s.dec.off.toNat ≠ 0 ∧ 32 < s.dec.off.toNat + s.dec.msb.toNat) ∧
    (let s := withCaps none (some 1) (withDec true 0x01FFFFFF 28 4 [])
     s.dec.phase = .opened ∧ s.dec.off.toNat ≠ 0 ∧ s.dec.off.toNat + s.dec.msb.toNat ≤ 32 ∧
     (0x80 : Byte).toNat ≥ 128 ∧ (0x7F : Byte).toNat < 128 ∧ s.cfg.decCap = some 1 ∧ s.dec.rbuf.length + 1 ≤ 1) ∧
    (let s := withCaps none (some 0) (withDec true 0x01FFFFFF 28 4 [])
     s.cfg.decCap = some 0 ∧ 0 < s.dec.rbuf.length + 1) := by decide

theorem witness_DecEndChecksThenDelivers :
    255 < 2 ^ 8 ∧ ({ State.reset with dec := { Dec.reset with phase := .err } } : State).dec.phase ≠ .opened ∧
    (State.reset.dec.phase = .opened ∧ State.reset.dec.seen = false) ∧
    ((withDec true 1 7 1 []).dec.seen = true ∧ (withDec true 1 7 1 []).dec.off ≠ 0) ∧
    ((withDec true 0 0 1 [1]).dec.seen = true ∧ (withDec true 0 0 1 [1]).dec.off = 0 ∧
      0 < (withDec true 0 0 1 [1]).dec.rbuf.length) ∧
    (nextOf (exec .decEnd (withDec true 0 0 1 [1]))).isSome = true := by decide

/-- The four rows of the table of R184 are entered. -/
theorem witness_EveryErrorEntryIsARowOfTheTable :
    (nextOf (exec (.encPush 0x100000000) State.reset)).map (·.enc.phase) = some .err ∧
    (nextOf (exec (.decPush 0x7F) (withDec true 0x03FFFFFF 28 5 []))).map (·.dec.phase) = some .err ∧
    (nextOf (exec .decEnd State.reset)).map (·.dec.phase) = some .err ∧
    (nextOf (exec .decEnd (withDec true 1 7 1 []))).map (·.dec.phase) = some .err := by decide

theorem witness_PhaseMachine :
    (nextOf (exec (.decPush 0x7F) State.reset)).map (·.dec.phase) = some .opened ∧
    (nextOf (exec .encEnd State.reset)).map (·.enc.phase) = some .done ∧
    (nextOf (exec .decEnd State.reset)).map (·.dec.phase) = some .err ∧
    (nextOf (step resetCycle)).map (·.enc.phase) = some .opened := by decide

/-- A closed block left by `CLR`, and by reset. -/
theorem witness_ClosedPhasesAreSticky :
    (withEnc .err .argument []).phase (Instr.encPush 0).block ≠ .opened ∧ (Instr.encPush 0).op = .push ∧
    (nextOf (step ((withEnc .err .argument []).withFetchWord 40 0x600000000))).map (·.phase .enc) = some .opened ∧
    (nextOf (step resetCycle)).map (·.phase .enc) = some .opened ∧ resetCycle.phase .enc = .err := by decide

/-- `ENC` in error, and `DEC` one byte into a number. -/
def midCall : State := { withDec true 0x7F 7 7 [] with enc := { phase := .err, err := .argument, obuf := [] } }

/-- A state that meets the invariant, neither the reset state nor at a number boundary. -/
theorem midCall_inv : midCall.Inv := by
  refine ⟨by decide, ⟨by simp [Enc.errInv, midCall], [], by simp, rfl⟩, ?_, by decide⟩
  constructor
  · simp [Dec.errInv, midCall, withDec, Dec.reset]
  · intro _ h; exact absurd h (by decide)
  · exact ⟨fun _ => by decide, fun h => absurd h (by decide)⟩
  · show midCall.dec.off.toNat ∈ [0, 7, 14, 21, 28, 35]; decide
  · intro _; decide
  · intro _ _ _ _; decide

theorem witness_ErrorIsWrittenOncePerCall :
    midCall.Inv ∧ exec (.encPush 5) midCall = .next midCall ∧ midCall.err .enc ≠ .none ∧
    (Instr.encPush 5).op ≠ .clear := ⟨midCall_inv, rfl, by decide, by decide⟩

theorem witness_OperationsKeepTheOtherBlock :
    (nextOf (exec (.encPush 0x7F) State.reset)).isSome = true ∧ (Instr.encPush 0x7F).block = .enc ∧
    (nextOf (exec (.decPush 0x7F) State.reset)).isSome = true ∧ (Instr.decPush 0x7F).block = .dec := by decide

theorem witness_OperationsOfTheTwoBlocksCommute :
    (Instr.encPush 0x7F).block = .enc ∧ (Instr.decPush 0x7F).block = .dec ∧
    (nextOf (andThen (exec (.encPush 0x7F) State.reset) (exec (.decPush 0x7F)))).isSome = true := by decide

/-- A push of five bytes, a push of one word, and a clear. -/
theorem witness_ResultSpacesAreAppendOnly :
    (nextOf (exec (.encPush 0xFFFFFFFF) State.reset)).map (·.enc.obuf.length) = some 5 ∧
    (nextOf (exec (.decPush 0x7F) State.reset)).map (·.dec.rbuf.length) = some 1 ∧
    (nextOf (exec .encClr (withEnc .done .none [0x7F]))).map (·.enc.obuf) = some [] := by decide

theorem witness_ReadPortsAnswerOnlyTheDeliveredResult :
    (withEnc .done .none [0x7F]).enc.phase = .done ∧ 0 < (withEnc .done .none [0x7F]).enc.obuf.length ∧
    (withEnc .done .none [0x7F]).enc.obuf.length ≤ 1 ∧ State.reset.enc.phase ≠ .done ∧
    (let s : State := { State.reset with dec := { Dec.reset with phase := .done, rbuf := [1] } }
     s.dec.phase = .done ∧ 0 < s.dec.rbuf.length ∧ s.dec.rbuf.length ≤ 1) ∧ State.reset.dec.phase ≠ .done := by decide

/-- A result of exactly the capacity; an index too wide at each port; and two indices that fit, exchanged. -/
theorem witness_ReadIndexHasTheWidthOfLen :
    Memory.wf (withCaps (some 1) (some 0) (withEnc .done .none [0x7F])) = true ∧
    (let s : State := { withCaps (some 1) (some 0) State.reset with pending := [{ Cycle.idle with encRdIdx := 2 }] }
     s.cycle.rst = false ∧ fitsLen s.cfg.encCap s.cycle.encRdIdx = false) ∧
    (let s : State := { withCaps (some 1) (some 0) State.reset with pending := [{ Cycle.idle with decRdIdx := 1 }] }
     s.cycle.rst = false ∧ fitsLen s.cfg.encCap s.cycle.encRdIdx = true ∧
     fitsLen s.cfg.decCap s.cycle.decRdIdx = false) ∧
    fitsLen (some 1) 0 = true ∧ fitsLen (some 1) 1 = true ∧ fitsLen (some 0) 0 = true := by decide

theorem witness_StatusOutputs :
    Memory.wf (withCaps (some 1) (some 0) (withEnc .done .none [0x7F])) = true ∧
    (withCaps (some 1) (some 0) State.reset).cfg.encCap = some 1 ∧
    (withCaps (some 1) (some 0) State.reset).cfg.decCap = some 0 := by decide

theorem witness_RepeatingChangesNothingMore :
    (Instr.decEnd).op ≠ .push ∧ (nextOf (exec .decEnd State.reset)).isSome = true ∧
    (withEnc .done .none []).phase (Instr.encPush 1).block ≠ .opened ∧
    (nextOf (exec (.encPush 1) (withEnc .done .none []))).isSome = true := by decide

theorem witness_RefusedExactlyOverCapacity :
    encOver (withCaps (some 4) none State.reset) 0xFFFFFFFF ∧ decOver (withCaps none (some 0) State.reset) 0x7F ∧
    State.reset.cfg.encCap = none ∧ State.reset.cfg.decCap = none :=
  ⟨⟨rfl, by decide, 4, rfl, by decide⟩, ⟨rfl, by decide, by decide, 0, rfl, by decide⟩, rfl, rfl⟩

theorem witness_FittingSignalsNeverFault :
    bothPorts.cycle.fitsPorts bothPorts.cfg = true ∧ bothPorts.cfg.encCap = none ∧ bothPorts.cfg.decCap = none := by
  decide

theorem witness_ExtractedGroupsRecompose : 0 < 0x123456 := by decide

theorem witness_BitLengthIsThePositionOfTheTopBit : 0 < 127 ∧ 127 < 128 := by decide

theorem witness_EncodeOneClosedForm :
    0 ≤ 0xFFFFFFFF ∧ 1 = max 1 ((bitLen 0 + 6) / 7) ∧ 0xFFFFFFFF ≤ 0xFFFFFFFF ∧
    5 = max 1 ((bitLen 0xFFFFFFFF + 6) / 7) ∧ 4 < 5 ∧ 5 ≠ 1 := by decide

theorem witness_EncodeOneIsTheMinimalNumber :
    0x80 ≤ 0xFFFFFFFF ∧ isNumber [0x80, 0x81, 0x00] = true ∧ runValue [0x80, 0x81, 0x00] = 0x80 ∧
    isNumber [0x81, 0x00] = true ∧ runValue [0x81, 0x00] = 0x80 ∧ isPadded [0x81, 0x00] = false := by decide

theorem witness_AccumulatorLosesNoBit :
    midCall.dec.Inv midCall.cfg.msbLatch ∧ midCall.dec.phase = .opened ∧
    midCall.dec.off.toNat + nextMsb midCall 0xFF ≤ 32 := ⟨midCall_inv.dec, by decide, by decide⟩

/-- A `DEC.PUSH` goes on from a state that meets the invariant. -/
theorem witness_StepKeepsTheInvariant :
    (midCall.withFetchWord 16 0x181).Inv ∧ (nextOf (step (midCall.withFetchWord 16 0x181))).isSome = true :=
  ⟨⟨midCall_inv.cfg, midCall_inv.enc, midCall_inv.dec, midCall_inv.memory⟩, by decide⟩

theorem witness_EncoderBufferIsTheConcatenation :
    (nextOf (runOps (.encClr :: [0x7F, 0x80].map .encPush) State.reset)).map (·.enc.phase) = some .opened := by decide

/-- An open call, one that has ended, and one closed by an overflow. -/
theorem witness_DecodedWordsAreExact :
    (nextOf (runOps (.decClr :: ([0x81, 0x00, 0xFF].map .decPush ++ [])) State.reset)).map (·.dec.phase) =
      some .opened ∧
    (nextOf (runOps (.decClr :: ([0x81, 0x00].map .decPush ++ [.decEnd])) State.reset)).map (·.dec.phase) =
      some .done ∧
    (nextOf (runOps (.decClr :: ([0x9F, 0xFF, 0xFF, 0xFF, 0x7F].map .decPush ++ [])) State.reset)).map (·.dec.phase) =
      some .err := by decide

/-- A call with `NOP`s that ends in an error, within a capacity of one byte. -/
theorem witness_EncoderComputesEncode :
    let ops : List Instr := [.encNop, .encClr, .encPush 5, .encNop, .encPush 0x100000000, .encEnd]
    (ops.filter fun i => decide (i ≠ .encNop)) = encodeCall [5, 0x100000000] ∧
    (nextOf (runOps ops (withCaps (some 1) none State.reset))).isSome = true ∧
    (([5, 0x100000000].takeWhile fun x => decide (x ≤ 0xFFFFFFFF)).flatMap encodeOne).length ≤ 1 := by decide

theorem witness_DecoderComputesDecode :
    let ops : List Instr := [.decNop, .decClr, .decPush 0x81, .decNop, .decPush 0x00, .decEnd]
    (ops.filter fun i => decide (i ≠ .decNop)) = decodeCall [0x81, 0x00] ∧
    (nextOf (runOps ops (withCaps none (some 1) State.reset))).isSome = true ∧
    (([0x81, 0x00] : List Byte).filter fun b => !contFlag b).length ≤ 1 := by decide

theorem witness_DecodeOfEncodeIsIdentity :
    [0, 0xFFFFFFFF] ≠ [] ∧ ∀ x ∈ [0, 0xFFFFFFFF], x ≤ 0xFFFFFFFF := by decide

theorem witness_RoundTripThroughBothBlocks :
    [0, 0xFFFFFFFF] ≠ [] ∧ (∀ x ∈ [0, 0xFFFFFFFF], x ≤ 0xFFFFFFFF) ∧
    ([0, 0xFFFFFFFF].flatMap encodeOne).length ≤ 6 ∧ [0, 0xFFFFFFFF].length ≤ 2 := by decide

/-- A stream with a padded number is accepted, and one without. -/
theorem witness_EncodeOfDecodeIsTheMinimalStream :
    decodeSeq .firstGroup [0x80, 0x80, 0x7F] = .ok [0x7F] ∧
    (∃ run ∈ runsOf [0x80, 0x80, 0x7F], isPadded run = true) ∧
    decodeSeq .firstGroup [0x81, 0x00] = .ok [0x80] ∧ ∀ run ∈ runsOf [0x81, 0x00], isPadded run = false := by decide

/-- A run that is cut one byte before the byte that raises, and at it; and a number on each side of the limit. -/
theorem witness_AcceptedStreamsInClosedForm :
    decodeSeq .firstGroup [0x7F] = .ok [0x7F] ∧
    runsOf [0x9F, 0xFF, 0xFF, 0xFF, 0x7F] = [[0x9F, 0xFF, 0xFF, 0xFF, 0x7F]] ∧
    maxRunBytes (firstGroupBits [0x9F, 0xFF, 0xFF, 0xFF, 0x7F]) = 4 ∧
    isNumber [0x9F, 0xFF, 0xFF, 0xFF, 0x7F] = true ∧ isNumber [0x8F, 0xFF, 0xFF, 0xFF, 0x7F] = true ∧
    7 * 4 + firstGroupBits [0x8F, 0xFF, 0xFF, 0xFF, 0x7F] = 32 := by decide

theorem witness_LongestAcceptedNumber :
    State.reset.cfg.msbLatch = .firstGroup ∧ State.reset.dec.phase = .opened ∧ State.reset.dec.off = 0 ∧
    (∀ c ∈ [(0x9F : Byte), 0xFF, 0xFF, 0xFF], contFlag c = true) ∧ State.reset.cfg.decCap = none ∧
    isNumber [0x8F, 0xFF, 0xFF, 0xFF, 0x7F] = true ∧
    decodeSeq .firstGroup [0x8F, 0xFF, 0xFF, 0xFF, 0x7F] = .ok [0xFFFFFFFF] := by decide

theorem witness_SixByteNumbersAreRejected :
    ∃ run ∈ runsOf [0x80, 0x8F, 0xFF, 0xFF, 0xFF, 0x7F], 6 ≤ run.length := by decide

theorem witness_LatchReadingsAgree :
    (∀ run ∈ runsOf [0x80, 0xFF, 0xFF, 0x7F, 0x8F, 0xFF, 0xFF, 0xFF, 0x7F],
      5 ≤ run.length → group (run.headD 0) ≠ 0) ∧ ∀ x ∈ [0, 0xFFFFFFFF], x ≤ 0xFFFFFFFF := by decide

theorem witness_LatchReadingsPartAtTheFifthByte :
    contFlag 0x80 = true ∧ contFlag 0xFF = true ∧ group 0x80 = 0 := by decide

theorem witness_EncodingIsSelfDelimiting :
    (∀ x ∈ [1, 0xFFFFFFFF], x ≤ 0xFFFFFFFF) ∧ encodeSeq [1, 0xFFFFFFFF] = encodeSeq [1, 0xFFFFFFFF] ∧
    0x7F ≤ 0xFFFFFFFF ∧ encodeOne 0x7F <+: encodeOne 0x7F := by decide

/-- Two runs that differ in the other block's operations and in what the block held. -/
theorem witness_OutcomeDependsOnOwnOperationsOnly :
    (withEnc .err .argument []).cfg = State.reset.cfg ∧
    (nextOf (runOps [.encClr, .decPush 0x81, .encPush 1] (withEnc .err .argument []))).isSome = true ∧
    (nextOf (runOps [.encNop, .encClr, .encPush 1] State.reset)).isSome = true ∧
    actsOn .enc [.encClr, .decPush 0x81, .encPush 1] = actsOn .enc [.encNop, .encClr, .encPush 1] ∧
    (actsOn .enc [.encClr, .decPush 0x81, .encPush 1]).head? = some .encClr ∧
    (nextOf (runOps [.decClr, .decPush 1] (withDec true 1 7 1 []))).isSome = true ∧
    (nextOf (runOps [.decClr, .encEnd, .decPush 1] State.reset)).isSome = true ∧
    actsOn .dec [.decClr, .decPush 1] = actsOn .dec [.decClr, .encEnd, .decPush 1] ∧
    (actsOn .dec [.decClr, .decPush 1]).head? = some .decClr := by decide

theorem witness_CallsEndAllOrNothing :
    (nextOf (runOps (encodeCall [1]) State.reset)).map (·.enc.phase) = some .done ∧
    (nextOf (runOps (encodeCall [0x100000000]) State.reset)).map (·.enc.phase) = some .err ∧
    (nextOf (runOps (decodeCall [1]) State.reset)).map (·.dec.phase) = some .done ∧
    (nextOf (runOps (decodeCall []) State.reset)).map (·.dec.phase) = some .err := by decide

theorem witness_WithoutEndNothingIsDelivered :
    (nextOf (runOps [.encPush 1, .decPush 0x81] State.reset)).isSome = true ∧ State.reset.enc.phase = .opened ∧
    State.reset.dec.phase = .opened ∧ State.reset.dec.err = .none ∧
    Instr.encEnd ∉ [.encPush 1, .decPush 0x81] ∧ Instr.decEnd ∉ [.encPush 1, .decPush 0x81] := by decide

end Sys2Proof.Tests.Slice0
end

section
/-! PROOFS. What every operation leaves unchanged: the frame of the two blocks (10_state.md R22), and a run of
operations as an induction. -/

namespace Sys2Proof.Machine

theorem Effect.cfg_eq {s t : State} {i : Instr} (h : Effect s i t) : t.cfg = s.cfg := by cases h <;> rfl

theorem Effect.pending_eq {s t : State} {i : Instr} (h : Effect s i t) : t.pending = s.pending := by cases h <;> rfl

/-- An `ENC` operation leaves `DEC` alone. -/
theorem Effect.dec_eq {s t : State} {i : Instr} (h : Effect s i t) (hb : i.block = .enc) : t.dec = s.dec := by
  cases h <;> cases hb <;> rfl

/-- A `DEC` operation leaves `ENC` alone. -/
theorem Effect.enc_eq {s t : State} {i : Instr} (h : Effect s i t) (hb : i.block = .dec) : t.enc = s.enc := by
  cases h <;> cases hb <;> rfl

/-- Settles O19, from the effects an operation can have. -/
theorem operationsKeepTheOtherBlock : Obligations.OperationsKeepTheOtherBlock := by
  intro i s t h
  have e := effect_of_exec h
  exact ⟨e.cfg_eq, e.pending_eq, e.dec_eq, e.enc_eq⟩

/-- What each operation of a list keeps, the run of the list keeps. -/
theorem runOps_keeps {P : State → Prop} {ops : List Instr}
    (keep : ∀ i ∈ ops, ∀ u v, exec i u = .next v → P u → P v) {s t : State}
    (h : runOps ops s = .next t) (hs : P s) : P t := by
  induction ops generalizing s with
  | nil => cases h; exact hs
  | cons i ops ih =>
    obtain ⟨u, hu, ht⟩ := andThen_eq_next.1 h
    exact ih (fun j hj => keep j (List.mem_cons_of_mem i hj)) ht (keep i List.mem_cons_self s u hu hs)

theorem runOps_cfg_eq {ops : List Instr} {s t : State} (h : runOps ops s = .next t) : t.cfg = s.cfg :=
  runOps_keeps (P := fun u => u.cfg = s.cfg) (fun _ _ _ _ hx hu => (effect_of_exec hx).cfg_eq.trans hu) h rfl

end Sys2Proof.Machine
end

section
/-! PROOFS. The state after reset and after `CLR`, the outputs and the read indices (10_state.md R24, R25, R29, R34;
20_memory.md R51). -/

namespace Sys2Proof.Machine

/-- Settles O8: `clear` writes the table of R34 and keeps the rest. -/
theorem resetAndClearGiveTheTable : Obligations.ResetAndClearGiveTheTable :=
  ⟨rfl, rfl, fun _ => ⟨rfl, rfl⟩⟩

@[simp] theorem lenOutput_done (n : Nat) : lenOutput .done n = n := rfl

theorem lenOutput_of_ne_done {p : Phase} (h : p ≠ .done) (n : Nat) : lenOutput p n = 0 := by
  cases p with
  | opened => rfl
  | done => exact absurd rfl h
  | err => rfl

theorem lenOutput_le (p : Phase) (n : Nat) : lenOutput p n ≤ n := by
  by_cases h : p = .done
  · rw [h, lenOutput_done]
  · rw [lenOutput_of_ne_done h]; exact Nat.zero_le n

/-- In canonical memory every index of `ENC.OBUF`, its length included, has the width of `len`. -/
theorem fitsLen_obuf {s : State} (h : Memory.wf s = true) {k : Nat} (hk : k ≤ s.enc.obuf.length) :
    fitsLen s.cfg.encCap k = true :=
  fitsLen_of_fits (fits_mono (memory_wf_iff.1 h).1 hk)

/-- In canonical memory every index of `DEC.RBUF`, its length included, has the width of `len`. -/
theorem fitsLen_rbuf {s : State} (h : Memory.wf s = true) {k : Nat} (hk : k ≤ s.dec.rbuf.length) :
    fitsLen s.cfg.decCap k = true :=
  fitsLen_of_fits (fits_mono (memory_wf_iff.1 h).2 hk)

theorem fitsLen_encOutputs_len {s : State} (h : Memory.wf s = true) :
    fitsLen s.cfg.encCap s.encOutputs.len = true := fitsLen_obuf h (lenOutput_le _ _)

theorem fitsLen_decOutputs_len {s : State} (h : Memory.wf s = true) :
    fitsLen s.cfg.decCap s.decOutputs.len = true := fitsLen_rbuf h (lenOutput_le _ _)

/-- Settles O24: the codes are those of R24 and R25, and `len` is bounded by the length of the buffer. -/
theorem statusOutputs : Obligations.StatusOutputs := by
  intro s
  have phaseCode {p q : Phase} (h : p = q) : p.code = q.code := congrArg _ h
  have errCode {e k : ErrKind} (h : e = k) : e.code = k.code := congrArg _ h
  have len {p : Phase} (h : p = .done) (n : Nat) : lenOutput p n = n := by rw [h, lenOutput_done]
  exact ⟨phaseCode, phaseCode, phaseCode, phaseCode, phaseCode, phaseCode,
    errCode, errCode, errCode, errCode, errCode, errCode,
    fun h => len h _, fun h => lenOutput_of_ne_done h _, fun h => len h _, fun h => lenOutput_of_ne_done h _,
    fun h => fitsLen_iff.1 (fitsLen_encOutputs_len h), fun h => fitsLen_iff.1 (fitsLen_decOutputs_len h)⟩

theorem wideIndex_of_enc {s : State} (h : fitsLen s.cfg.encCap s.cycle.encRdIdx = false) :
    wideIndex s = some .enc := if_pos h

theorem wideIndex_of_dec {s : State} (he : fitsLen s.cfg.encCap s.cycle.encRdIdx = true)
    (hd : fitsLen s.cfg.decCap s.cycle.decRdIdx = false) : wideIndex s = some .dec := by
  rw [wideIndex, if_neg (by simp [he]), if_pos hd]

theorem step_cons_of_rst (s : State) {c : Cycle} (rest : List Cycle) (hr : c.rst = true) :
    step { s with pending := c :: rest } = .next (resetBlocks { s with pending := rest }) := if_pos hr

/-- A presented cycle without reset, by its two command words alone. -/
theorem step_cons_of_fitsIndices (s : State) {c : Cycle} (rest : List Cycle) (hr : c.rst = false)
    (hc : c.fitsIndices s.cfg = true) :
    step { s with pending := c :: rest } =
      andThen (runPresented exec .enc (decode s.cfg .enc c.encWord) { s with pending := rest }) fun t =>
        runPresented exec .dec (decode s.cfg .dec c.decWord) t :=
  step_of_fitsIndices (s := { s with pending := c :: rest }) hr hc

theorem fitsIndices_iff {cfg : Config} {c : Cycle} : c.fitsIndices cfg = true ↔
    fitsLen cfg.encCap c.encRdIdx = true ∧ fitsLen cfg.decCap c.decRdIdx = true := Bool.and_eq_true_iff

/-- Which of the fitting read indices a cycle presents does not matter to the step (R54, R55, R63). -/
theorem step_withIndices (s : State) {c : Cycle} (rest : List Cycle) {i j : Nat}
    (hc : c.fitsIndices s.cfg = true)
    (hij : Cycle.fitsIndices s.cfg { c with encRdIdx := i, decRdIdx := j } = true) :
    step { s with pending := { c with encRdIdx := i, decRdIdx := j } :: rest } =
      step { s with pending := c :: rest } := by
  rcases c.rst.eq_false_or_eq_true with hr | hr
  · rw [step_cons_of_rst s rest hr]
    exact step_cons_of_rst s rest hr
  · rw [step_cons_of_fitsIndices s rest hr hc]
    exact step_cons_of_fitsIndices s rest hr hij

/-- Settles O23: a length within its capacity has the capacity's bits; the step looks at an index for its width
only. -/
theorem readIndexHasTheWidthOfLen : Obligations.ReadIndexHasTheWidthOfLen := by
  refine ⟨fun _ => rfl, fun cap i => by simp [fitsLen_iff], fun s h => ?_, fun s hr => ?_,
    fun s c rest i j hce hcd hi hj => ?_⟩
  · exact ⟨fun _ => fitsLen_obuf h, fun _ => fitsLen_rbuf h, fitsLen_encOutputs_len h, fitsLen_decOutputs_len h⟩
  · exact ⟨fun he => step_of_wideIndex hr (wideIndex_of_enc he),
      fun he hd => step_of_wideIndex hr (wideIndex_of_dec he hd)⟩
  · exact ⟨step_withIndices s rest (fitsIndices_iff.2 ⟨hce, hcd⟩) (fitsIndices_iff.2 ⟨hi, hj⟩), rfl, rfl⟩

end Sys2Proof.Machine
end

section
/-! PROOFS. The accumulator's width and the invariant of `DEC` (10_state.md R35 to R39, R41). -/

namespace Sys2Proof.Machine

theorem toNat_ne_zero {n : Nat} {x : BitVec n} (h : x ≠ 0) : x.toNat ≠ 0 := fun h' => h (BitVec.eq_of_toNat_eq h')

/-! ### What a byte latches -/

/-- A byte that finds `dec_off` and `dec_acc` 0 latches its own bit length, under both values of `MSB_LATCH`. -/
theorem nextMsb_of_boundary {s : State} (hoff : s.dec.off = 0) (hacc : s.dec.acc = 0) (b : Byte) :
    nextMsb s b = bitLen (group b) := by
  rw [group_eq, nextMsb, hoff, hacc]
  cases s.cfg.msbLatch <;> rfl

/-- Inside a number whose accumulator is not 0, both values of `MSB_LATCH` keep `dec_msb`. -/
theorem nextMsb_of_inside {s : State} (hoff : s.dec.off ≠ 0) (hacc : s.dec.acc ≠ 0) (b : Byte) :
    nextMsb s b = s.dec.msb.toNat := by
  unfold nextMsb msbAfter
  cases s.cfg.msbLatch with
  | firstGroup => exact if_neg (toNat_ne_zero hoff)
  | accZero => exact if_neg (toNat_ne_zero hacc)

/-- `FIRST_GROUP` keeps `dec_msb` inside a number, whatever the accumulator. -/
theorem nextMsb_firstGroup {s : State} (hl : s.cfg.msbLatch = .firstGroup) (hoff : s.dec.off ≠ 0) (b : Byte) :
    nextMsb s b = s.dec.msb.toNat := by
  rw [nextMsb, hl]
  exact if_neg (toNat_ne_zero hoff)

theorem nextMsb_le (s : State) (b : Byte) : nextMsb s b ≤ 7 := by
  rw [← latchedMsb_toNat]
  have := (latchedMsb s.cfg.msbLatch s.dec (group b)).isLt
  omega

/-- R38 as arithmetic: at most five groups of seven bits. -/
theorem Dec.offsetInv_iff {d : Dec} : d.offsetInv ↔ d.off.toNat % 7 = 0 ∧ d.off.toNat ≤ 35 := by
  simp only [Dec.offsetInv, List.mem_cons, List.not_mem_nil, or_false]
  omega

theorem Dec.offsetInv.seven_le {d : Dec} (h : d.offsetInv) (hoff : d.off ≠ 0) : 7 ≤ d.off.toNat := by
  have ho := toNat_ne_zero hoff
  have := Dec.offsetInv_iff.1 h
  omega

/-! ### The width of the accumulator -/

section
variable {s : State} (inv : s.dec.Inv s.cfg.msbLatch) (opened : s.dec.phase = .opened)
include inv opened

/-- The accumulator with the byte's group under it has at most `dec_off + msb'` bits (R39, R41). -/
theorem bitLen_accumulated_le (b : Byte) :
    bitLen (s.dec.acc.toNat * 128 + group b) ≤ s.dec.off.toNat + nextMsb s b := by
  by_cases hoff : s.dec.off = 0
  · have hacc := inv.boundary opened hoff
    simp [nextMsb_of_boundary hoff hacc, hacc]
  · by_cases hacc : s.dec.acc = 0
    · have h7 := inv.offset.seven_le hoff
      have hg := bitLen_group_le b
      simp [hacc]; omega
    · have hpos : 0 < s.dec.acc.toNat := Nat.pos_of_ne_zero (toNat_ne_zero hacc)
      have hw := (inv.width opened).2 hoff
      rw [bitLen_mul_add hpos (group_lt b), nextMsb_of_inside hoff hacc]
      exact hw

/-- Under `FIRST_GROUP`, once the latched bit length is not 0, it has exactly so many (R39). -/
theorem bitLen_accumulated_eq {b : Byte} (hl : s.cfg.msbLatch = .firstGroup) (hm : nextMsb s b ≠ 0) :
    bitLen (s.dec.acc.toNat * 128 + group b) = s.dec.off.toNat + nextMsb s b := by
  by_cases hoff : s.dec.off = 0
  · have hacc := inv.boundary opened hoff
    simp [nextMsb_of_boundary hoff hacc, hacc, hoff]
  · rw [nextMsb_firstGroup hl hoff] at hm ⊢
    have hw := inv.exactWidth hl opened hoff fun h => hm (by rw [h]; rfl)
    have h7 := inv.offset.seven_le hoff
    have hpos : 0 < s.dec.acc.toNat := bitLen_pos.1 (by omega)
    rw [bitLen_mul_add hpos (group_lt b), hw]

/-- Where the check passes, the new accumulator is below 2³² (R41). -/
theorem accumulated_lt {b : Byte} (pass : s.dec.off.toNat + nextMsb s b ≤ 32) :
    s.dec.acc.toNat * 128 + group b < 2 ^ 32 :=
  bitLen_le_iff.1 ((bitLen_accumulated_le inv opened b).trans pass)

/-- So the 32-bit register holds it exactly (R41, R126). -/
theorem accumulate_exact {b : Byte} (pass : s.dec.off.toNat + nextMsb s b ≤ 32) :
    (accumulate s.dec.acc (group b)).toNat = s.dec.acc.toNat * 128 + group b := by
  rw [accumulate_toNat _ (group_lt b), Nat.mod_eq_of_lt (accumulated_lt inv opened pass)]

end

/-- Settles O32, from the width of the accumulator under the invariant. -/
theorem accumulatorLosesNoBit : Obligations.AccumulatorLosesNoBit :=
  fun _ _ inv opened pass => ⟨accumulated_lt inv opened pass, accumulate_exact inv opened pass⟩

/-! ### The invariant of `DEC`, update by update -/

theorem Dec.reset_inv (latch : MsbLatch) : Dec.reset.Inv latch where
  err := by simp [Dec.errInv, Dec.reset]
  boundary := fun _ _ => rfl
  seen := by simp [Dec.seenInv, Dec.reset]
  offset := by simp [Dec.offsetInv, Dec.reset]
  width := by simp [Dec.widthInv, Dec.reset]
  exactWidth := fun _ _ h => absurd rfl h

/-- In phase `ERR` the invariant is R35 and R38: the rest speaks of the other phases. -/
theorem Dec.inv_of_err {latch : MsbLatch} {d : Dec} (hp : d.phase = .err) (he : d.err ≠ .none)
    (hb : d.rbuf = []) (ho : d.offsetInv) : d.Inv latch := by
  have hno : d.phase ≠ .opened := by simp [hp]
  exact
    { err := ⟨⟨fun _ => he, fun _ => hp⟩, fun _ => hb⟩
      boundary := fun h => absurd h hno
      seen := ⟨fun h => absurd h hno, fun h => by simp [hp] at h⟩
      offset := ho
      width := fun h => absurd h hno
      exactWidth := fun _ h => absurd h hno }

/-- Error entry meets the invariant, whatever `PUSH` latched before it (R186). -/
theorem raise_dec_inv {latch : MsbLatch} {s : State} {k : ErrKind} (hk : k ≠ .none) (ho : s.dec.offsetInv) :
    (raise .dec k s).dec.Inv latch := Dec.inv_of_err rfl hk rfl ho

section
variable {s : State} (inv : s.dec.Inv s.cfg.msbLatch) (opened : s.dec.phase = .opened)
include inv opened

theorem err_eq_none_of_opened : s.dec.err = .none := by
  by_contra h
  have := inv.err.1.2 h
  simp [opened] at this

theorem deliver_dec_inv (seen : s.dec.seen = true) (boundary : s.dec.off = 0) :
    (deliver .dec s).dec.Inv s.cfg.msbLatch := by
  have hb : s.dec.rbuf ≠ [] := fun h => by
    have := (inv.seen.1 opened).2 ⟨h, boundary⟩
    simp [seen] at this
  have he := err_eq_none_of_opened inv opened
  constructor
  · simp [Dec.errInv, he]
  · exact nofun
  · exact ⟨nofun, fun _ => ⟨boundary, hb⟩⟩
  · exact inv.offset
  · exact nofun
  · exact nofun

/-- A number that goes on: `dec_off` grows by a group, and the accumulator is as wide as R39 says (R127). -/
theorem continueNumber_inv {b : Byte} (pass : s.dec.off.toNat + nextMsb s b ≤ 32) :
    (continueNumber (accumulate s.dec.acc (group b)) (latchGroup b s)).dec.Inv s.cfg.msbLatch := by
  have offset := Dec.offsetInv_iff.1 inv.offset
  have hoff : (s.dec.off + 7).toNat = s.dec.off.toNat + 7 := by
    rw [BitVec.toNat_add]; exact Nat.mod_eq_of_lt (by simp; omega)
  have hne : s.dec.off + 7 ≠ 0 := fun h => by rw [h] at hoff; simp at hoff
  have hmsb := latchedMsb_toNat s b
  have hacc := accumulate_exact inv opened pass
  constructor
  · simp [Dec.errInv, opened, err_eq_none_of_opened inv opened]
  · exact fun _ h => absurd h hne
  · exact ⟨fun _ => ⟨nofun, fun h => absurd h.2 hne⟩, fun h => absurd (opened.symm.trans h) (by decide)⟩
  · rw [Dec.offsetInv_iff, continueNumber_dec, latchGroup_dec, hoff]
    omega
  · intro _
    simp only [continueNumber_dec, latchGroup_dec, hoff, hmsb, hacc]
    have := bitLen_accumulated_le inv opened b
    exact ⟨by omega, fun _ => by omega⟩
  · intro hl _ _ hm
    have hm' : nextMsb s b ≠ 0 := hmsb ▸ toNat_ne_zero hm
    simp only [continueNumber_dec, latchGroup_dec, hoff, hmsb, hacc]
    have := bitLen_accumulated_eq inv opened hl hm'
    omega

/-- A number that is complete: `DEC` is back at a boundary, with one word more (R127). -/
theorem completed_inv (b : Byte) (w : Word) :
    Dec.Inv s.cfg.msbLatch { (latchGroup b s).dec with acc := 0, off := 0, rbuf := s.dec.rbuf ++ [w] } where
  err := by simp [Dec.errInv, opened, err_eq_none_of_opened inv opened]
  boundary := fun _ _ => rfl
  seen := by simp [Dec.seenInv]
  offset := by simp [Dec.offsetInv]
  width := fun _ => by
    have := nextMsb_le s b
    simp [latchedMsb_toNat]; omega
  exactWidth := fun _ _ h => absurd rfl h

end

/-- Every operation keeps the invariant of `DEC`. -/
theorem Effect.dec_inv {s t : State} {i : Instr} (h : Effect s i t) (inv : s.dec.Inv s.cfg.msbLatch) :
    t.dec.Inv t.cfg.msbLatch := by
  cases h with
  | encNop | encDiscarded | encRaised | encAppended | encEndDiscarded | encDelivered | encCleared => exact inv
  | decNop | decDiscarded | decEndDiscarded => exact inv
  | decRaised b => exact raise_dec_inv (s := latchGroup b s) (by decide) inv.offset
  | decContinued b opened pass => exact continueNumber_inv inv opened pass
  | decCompleted b opened => exact completed_inv inv opened b _
  | decEmpty => exact raise_dec_inv (by decide) inv.offset
  | decIncomplete => exact raise_dec_inv (by decide) inv.offset
  | decDelivered opened seen boundary => exact deliver_dec_inv (s := s) inv opened seen boundary
  | decCleared => exact Dec.reset_inv _

theorem runOps_dec_inv {ops : List Instr} {s t : State} (h : runOps ops s = .next t)
    (inv : s.dec.Inv s.cfg.msbLatch) : t.dec.Inv t.cfg.msbLatch :=
  runOps_keeps (P := fun u => u.dec.Inv u.cfg.msbLatch) (fun _ _ _ _ hx => (effect_of_exec hx).dec_inv) h inv

end Sys2Proof.Machine
end

section
/-! PROOFS. The invariant of `ENC` and of the whole machine (10_state.md R35, R42), and what an open encode call
holds. -/

namespace Sys2Proof.Machine

theorem Enc.reset_inv : Enc.reset.Inv := ⟨by simp [Enc.errInv, Enc.reset], [], by simp, rfl⟩

/-- One number more in `ENC.OBUF` (R104). -/
theorem Enc.holdsNumbers.append {e : Enc} (h : e.holdsNumbers) {v : Nat} (hv : v ≤ maxValue) :
    Enc.holdsNumbers { e with obuf := e.obuf ++ encodeOne v } := by
  obtain ⟨vs, hvs, hobuf⟩ := h
  refine ⟨vs ++ [v], ?_, by simp [hobuf]⟩
  intro x hx
  rcases List.mem_append.1 hx with hx | hx
  · exact hvs x hx
  · exact List.mem_singleton.1 hx ▸ hv

/-- Every operation keeps the invariant of `ENC`. -/
theorem Effect.enc_inv {s t : State} {i : Instr} (h : Effect s i t) (inv : s.enc.Inv) : t.enc.Inv := by
  obtain ⟨⟨herr, hempty, hkind⟩, hnum⟩ := inv
  cases h with
  | decNop | decDiscarded | decRaised | decContinued | decCompleted | decEndDiscarded | decEmpty | decIncomplete
  | decDelivered | decCleared => exact ⟨⟨herr, hempty, hkind⟩, hnum⟩
  | encNop | encDiscarded | encEndDiscarded => exact ⟨⟨herr, hempty, hkind⟩, hnum⟩
  | encRaised => exact ⟨by simp [Enc.errInv], [], by simp, rfl⟩
  | encAppended v opened inRange =>
    exact ⟨⟨herr, fun h => absurd (opened.symm.trans h) (by decide), hkind⟩, hnum.append inRange⟩
  | encDelivered opened =>
    have he : s.enc.err = .none := by simpa [opened] using herr
    exact ⟨by simp [Enc.errInv, he], hnum⟩
  | encCleared => exact Enc.reset_inv

/-- Every operation keeps the result spaces within their capacities. -/
theorem Effect.memory_wf {s t : State} {i : Instr} (h : Effect s i t) (wf : Memory.wf s = true) :
    Memory.wf t = true := by
  cases h with
  | encNop | encDiscarded | encEndDiscarded | decNop | decDiscarded | decEndDiscarded => exact wf
  | encRaised | decEmpty | decIncomplete => exact raise_memory_wf wf _ _
  | encDelivered | decDelivered => exact deliver_memory_wf wf _
  | encCleared | decCleared => exact clear_memory_wf wf _
  | decRaised b => exact raise_memory_wf (s := latchGroup b s) wf _ _
  | decContinued => exact wf
  | encAppended v _ _ fit =>
    exact memory_wf_iff.2 ⟨by simpa using fit, (memory_wf_iff.1 wf).2⟩
  | decCompleted b _ _ _ fit =>
    exact memory_wf_iff.2 ⟨(memory_wf_iff.1 wf).1, by simpa using fit⟩

theorem exec_keeps_inv {s t : State} {i : Instr} (h : exec i s = .next t) (inv : s.Inv) : t.Inv := by
  have e := effect_of_exec h
  exact ⟨e.cfg_eq ▸ inv.cfg, e.enc_inv inv.enc, e.dec_inv inv.dec, e.memory_wf inv.memory⟩

theorem advance_inv {s : State} (inv : s.Inv) : s.advance.Inv := ⟨inv.cfg, inv.enc, inv.dec, inv.memory⟩

/-- Reset gives the invariant back from every state with legal parameters. -/
theorem resetBlocks_inv {s : State} (hcfg : s.cfg.wf = true) : (resetBlocks s).Inv :=
  ⟨hcfg, Enc.reset_inv, Dec.reset_inv _, memory_wf_iff.2 ⟨fits_zero _, fits_zero _⟩⟩

/-- Settles O33, block by block. -/
theorem resetMeetsTheInvariant : Obligations.ResetMeetsTheInvariant :=
  ⟨by decide, Enc.reset_inv, Dec.reset_inv _, reset_memory_wf⟩

/-- Settles O34: a step is a reset, or two operations, each of which keeps the invariant. -/
theorem stepKeepsTheInvariant : Obligations.StepKeepsTheInvariant := by
  intro s t inv h
  rcases step_cases h with ⟨-, rfl⟩ | ⟨-, -, i, j, u, -, -, hi, hj⟩
  · exact resetBlocks_inv (advance_inv inv).cfg
  · exact exec_keeps_inv hj (exec_keeps_inv hi (advance_inv inv))

/-! ### An open encode call -/

/-- Pushes that leave the call open found it open, had values in range, and appended their encodings. -/
theorem obuf_of_pushes_opened {xs : List Nat} {s t : State} (h : runOps (xs.map .encPush) s = .next t)
    (ht : t.enc.phase = .opened) :
    s.enc.phase = .opened ∧ (∀ x ∈ xs, x ≤ maxValue) ∧ t.enc.obuf = s.enc.obuf ++ xs.flatMap encodeOne := by
  induction xs generalizing s with
  | nil => cases h; simp [ht]
  | cons x xs ih =>
    obtain ⟨u, hu, hrest⟩ := andThen_eq_next.1 h
    obtain ⟨hopen, hin, hobuf⟩ := ih hrest
    cases effect_of_exec hu with
    | encDiscarded _ closed => exact absurd hopen closed
    | encRaised => cases hopen
    | encAppended _ opened inRange =>
      exact ⟨opened, List.forall_mem_cons.2 ⟨inRange, hin⟩, by simp [hobuf]⟩

/-- Settles O35, by induction on the values pushed. -/
theorem encoderBufferIsTheConcatenation : Obligations.EncoderBufferIsTheConcatenation := by
  intro s t xs h ht
  have hpush : runOps (xs.map .encPush) (clear .enc s) = .next t := h
  obtain ⟨-, hin, hobuf⟩ := obuf_of_pushes_opened hpush ht
  exact ⟨hin, hobuf⟩

end Sys2Proof.Machine
end

section
/-! PROOFS. The words of a decode call are the values of the completed numbers (10_state.md R40). -/

namespace Sys2Proof.Machine

/-- The values of the numbers that a stream completes, where `acc` is the value of the groups already read of the
first of them. -/
def completedValues : Nat → List Byte → List Nat
  | _, [] => []
  | acc, b :: bs =>
    if contFlag b then completedValues (acc * 128 + group b) bs
    else (acc * 128 + group b) :: completedValues 0 bs

theorem completedValues_cont {b : Byte} (h : contFlag b = true) (acc : Nat) (bs : List Byte) :
    completedValues acc (b :: bs) = completedValues (acc * 128 + group b) bs := if_pos h

theorem completedValues_term {b : Byte} (h : contFlag b = false) (acc : Nat) (bs : List Byte) :
    completedValues acc (b :: bs) = (acc * 128 + group b) :: completedValues 0 bs := if_neg (by simp [h])

/-- Continuation bytes complete nothing; their groups go into the accumulator. -/
theorem completedValues_allCont {c : List Byte} (hc : AllCont c) (acc : Nat) (bs : List Byte) :
    completedValues acc (c ++ bs) = completedValues (acc * 128 ^ c.length + runValue c) bs := by
  induction c generalizing acc with
  | nil => simp [runValue]
  | cons y c ih =>
    obtain ⟨hy, hc⟩ := List.forall_mem_cons.1 hc
    rw [List.cons_append, completedValues_cont hy, ih hc, List.length_cons, runValue, Nat.pow_succ]
    congr 1
    ring

theorem completedValues_number {n : List Byte} (hn : isNumber n = true) (bs : List Byte) :
    completedValues 0 (n ++ bs) = runValue n :: completedValues 0 bs := by
  obtain ⟨c, b, rfl, hc, hb⟩ := isNumber_iff.1 hn
  rw [List.append_assoc, completedValues_allCont hc, List.singleton_append, completedValues_term hb, runValue_append]
  simp [runValue]

/-- From a boundary they are the values of the stream's encoded numbers, in order; an open run at the end is none. -/
theorem completedValues_eq_runValues (bs : List Byte) :
    completedValues 0 bs = ((runsOf bs).filter isNumber).map runValue := by
  induction bs using stream_induction with
  | empty => rfl
  | open_ c hc hne =>
    have := completedValues_allCont hc 0 []
    rw [List.append_nil] at this
    simp [this, completedValues, runsOf_allCont hc hne, isNumber_of_allCont hc]
  | number n rest hn ih => simp [completedValues_number hn, runsOf_number hn, hn, ih]

/-- `PUSH` in a closed call is discarded (R188). -/
theorem runOps_decPush_of_closed {s : State} (h : s.dec.phase ≠ .opened) (bs : List Byte) :
    runOps (bs.map .decPush) s = .next s := by
  induction bs with
  | nil => rfl
  | cons b bs ih =>
    rw [List.map_cons, runOps_cons, exec_of_effect (.decDiscarded b h), andThen_next, ih]

/-- Pushes into an open call that end without an error leave it open, with the words of the numbers they completed. -/
theorem rbuf_of_pushes {bs : List Byte} {s t : State} (inv : s.dec.Inv s.cfg.msbLatch)
    (opened : s.dec.phase = .opened) (h : runOps (bs.map .decPush) s = .next t) (ht : t.dec.phase ≠ .err) :
    t.dec.phase = .opened ∧
      t.dec.rbuf.map BitVec.toNat = s.dec.rbuf.map BitVec.toNat ++ completedValues s.dec.acc.toNat bs := by
  induction bs generalizing s with
  | nil => cases h; simp [opened, completedValues]
  | cons b bs ih =>
    obtain ⟨u, hu, hrest⟩ := andThen_eq_next.1 h
    have hux := effect_of_exec hu
    have uinv := hux.dec_inv inv
    cases hux with
    | decDiscarded _ closed => exact absurd opened closed
    | decRaised =>
      rw [runOps_decPush_of_closed (by simp)] at hrest
      cases hrest; exact absurd rfl ht
    | decContinued _ _ pass cont =>
      have := ih uinv opened hrest
      simpa [completedValues_cont cont, accumulate_exact inv opened pass] using this
    | decCompleted _ _ pass terminal =>
      have := ih uinv opened hrest
      simpa [completedValues_term terminal, accumulate_exact inv opened pass] using this

/-- `DEC.END` keeps the words unless it raises, and a call in error stays so (R128, R188). -/
theorem rbuf_of_decEnd {s t : State} (h : exec .decEnd s = .next t) (ht : t.dec.phase ≠ .err) :
    t.dec.rbuf = s.dec.rbuf ∧ s.dec.phase ≠ .err := by
  cases effect_of_exec h with
  | decEndDiscarded => exact ⟨rfl, ht⟩
  | decEmpty => exact absurd rfl ht
  | decIncomplete => exact absurd rfl ht
  | decDelivered opened => exact ⟨rfl, by simp [opened]⟩

/-- Settles O36: the pushes by induction with the invariant, whose width bound makes every word exact. -/
theorem decodedWordsAreExact : Obligations.DecodedWordsAreExact := by
  intro s t bs last hlast h
  have hrun : runOps (bs.map .decPush ++ last) (clear .dec s) = .next t := h
  have start : (clear .dec s).dec.Inv (clear .dec s).cfg.msbLatch := Dec.reset_inv _
  refine ⟨fun ht => ?_, (runOps_dec_inv hrun start).err.2⟩
  rw [runOps_append] at hrun
  obtain ⟨u, hu, hend⟩ := andThen_eq_next.1 hrun
  have hkept : t.dec.rbuf = u.dec.rbuf ∧ u.dec.phase ≠ .err := by
    rcases hlast with rfl | rfl
    · cases hend; exact ⟨rfl, ht⟩
    · rw [runOps_cons] at hend
      obtain ⟨v, hv, hvt⟩ := andThen_eq_next.1 hend
      cases hvt
      exact rbuf_of_decEnd hv ht
  obtain ⟨hrbuf, hu'⟩ := hkept
  have words : t.dec.rbuf.map BitVec.toNat = ((runsOf bs).filter isNumber).map runValue := by
    rw [hrbuf, (rbuf_of_pushes start rfl hu hu').2]
    exact completedValues_eq_runValues bs
  refine ⟨words, fun v hv => ?_⟩
  rw [← words] at hv
  obtain ⟨w, -, rfl⟩ := List.mem_map.1 hv
  exact Nat.le_of_lt_succ w.isLt

end Sys2Proof.Machine
end

section
/-! PROOFS. The operation presented at each port, and cycles presented one after the other (20_memory.md R60;
70_reset_and_hazards.md R210). -/

namespace Sys2Proof

/-- An operation is its block, its code and its data field (R80). -/
theorem Instr.ofFields_data (i : Instr) : Instr.ofFields i.data i.block i.op = i := by
  cases i with
  | decPush b => exact congrArg Instr.decPush ((BitVec.ofNat_toNat 8 b).trans (BitVec.setWidth_eq b))
  | encNop | encPush | encEnd | encClr | decNop | decEnd | decClr => rfl

/-- The word of a well-formed operation decodes to it at its port (R80). -/
theorem decode_encode {cfg : Config} {i : Instr} (h : i.wellFormed cfg = true) :
    decode cfg i.block (encode cfg i) = .ok i := by
  have hd := Instr.data_lt h
  refine decode_eq_ok.2 ⟨i.op, word_code _ hd, ?_⟩
  rw [encode, word_data _ hd, Instr.ofFields_data]

/-- The all-zero word is `NOP` at either port (R103, R121). -/
theorem decode_zero (cfg : Config) (b : Block) : decode cfg b 0 = .ok (Instr.ofFields 0 b .nop) :=
  decode_eq_ok.2 ⟨.nop, Nat.zero_shiftRight _, by rw [Nat.zero_mod]⟩

end Sys2Proof

namespace Sys2Proof.Machine

/-- A cycle without reset runs the operation of each port on the state past the cycle. -/
theorem step_of_decode {s : State} {i j : Instr} (hr : s.cycle.rst = false) (hf : s.cycle.fitsIndices s.cfg = true)
    (hi : decode s.cfg .enc s.cycle.encWord = .ok i) (hj : decode s.cfg .dec s.cycle.decWord = .ok j) :
    step s = andThen (exec i s.advance) (exec j) := by
  have hi' : presented .enc s = .ok i := hi
  have hj' : presented .dec s = .ok j := hj
  rw [step_of_fitsIndices hr hf, hi', hj']
  rfl

/-- Settles O5: the step runs both operations, and `NOP` adds nothing before or after the other. -/
theorem stepRunsTheOperationAtEachPort : Obligations.StepRunsTheOperationAtEachPort := by
  intro s i j hr hf hi hj
  have hstep := step_of_decode hr hf hi hj
  refine ⟨hstep, ?_, ?_⟩
  · rintro rfl
    exact hstep
  · rintro rfl
    exact hstep.trans (andThen_next_right _)

/-- A presented operation reaches its own port, and the other port carries `NOP`: the cycle is that operation. -/
theorem step_cons_presentOp (s : State) {i : Instr} (rest : List Cycle) (h : i.wellFormed s.cfg = true) :
    step { s with pending := presentOp s.cfg i :: rest } = exec i { s with pending := rest } := by
  have hi := decode_encode h
  have hf := presentOp_fitsIndices s.cfg s.cfg i
  cases hb : i.block with
  | enc =>
    have hc : presentOp s.cfg i = { Cycle.idle with encWord := encode s.cfg i } := by simp only [presentOp, hb]
    rw [hb] at hi
    rw [hc] at hf ⊢
    have hstep := step_of_decode (s := { s with pending := { Cycle.idle with encWord := encode s.cfg i } :: rest })
      rfl hf hi (decode_zero s.cfg .dec)
    exact hstep.trans (andThen_next_right _)
  | dec =>
    have hc : presentOp s.cfg i = { Cycle.idle with decWord := encode s.cfg i } := by simp only [presentOp, hb]
    rw [hb] at hi
    rw [hc] at hf ⊢
    exact step_of_decode (s := { s with pending := { Cycle.idle with decWord := encode s.cfg i } :: rest })
      rfl hf (decode_zero s.cfg .enc) hi

theorem core_run_of_next {M : Host.Core} {s t : M.State} (k : Nat) (h : M.step s = .next t) :
    M.run (k + 1) s = M.run k t := by simp only [Host.Core.run, h]

theorem core_run_of_fault {M : Host.Core} {s : M.State} {r : M.Fault} (k : Nat) (h : M.step s = .fault r) :
    M.run (k + 1) s = .fault r := by simp only [Host.Core.run, h]

theorem core_run_of_refused {M : Host.Core} {s : M.State} {r : M.Refusal} (k : Nat) (h : M.step s = .refused r) :
    M.run (k + 1) s = .refused r := by simp only [Host.Core.run, h]

/-- `k` steps one after the other, stopping where a step stops. -/
def runCycles : Nat → State → Result
  | 0, s => .next s
  | k + 1, s => andThen (step s) (runCycles k)

/-- They are the runs of the machine behind the host's interface. -/
theorem core_run_eq_runCycles (k : Nat) (s : State) : Host.Core.run Sys2Proof.core k s = runCycles k s := by
  induction k generalizing s with
  | zero => rfl
  | succ k ih =>
    rw [runCycles]
    cases h : step s with
    | next t => exact (core_run_of_next (M := core) k h).trans (ih t)
    | fault r => exact core_run_of_fault (M := core) k h
    | refused r => exact core_run_of_refused (M := core) k h

/-- By induction on the operations: a cycle is its operation, which neither reads nor writes the cycles still to
come. -/
theorem runCycles_presentOp {ops : List Instr} {s : State} (hwf : ∀ i ∈ ops, i.wellFormed s.cfg = true) :
    runCycles ops.length { s with pending := ops.map (presentOp s.cfg) ++ s.pending } = runOps ops s := by
  induction ops generalizing s with
  | nil => rfl
  | cons i ops ih =>
    obtain ⟨hi, hops⟩ := List.forall_mem_cons.1 hwf
    rw [List.length_cons, runCycles, List.map_cons, List.cons_append, step_cons_presentOp s _ hi,
      exec_withPending, runOps_cons, andThen_assoc]
    cases h : exec i s with
    | next t =>
      have e := effect_of_exec h
      simp only [andThen_next]
      rw [← e.cfg_eq, ← e.pending_eq]
      exact ih (e.cfg_eq ▸ hops)
    | fault r => rfl
    | refused r => rfl

/-- Settles O6: the machine's run is `runCycles`, and presented cycles run their operations. -/
theorem presentedCyclesRunTheOperations : Obligations.PresentedCyclesRunTheOperations :=
  fun _ _ hwf => (core_run_eq_runCycles _ _).trans (runCycles_presentOp hwf)

end Sys2Proof.Machine
end

section
/-! PROOFS. Operations of the two blocks share no state (20_memory.md R60; 60_exceptions.md R194). -/

namespace Sys2Proof.Machine

/-- `s` with the registers of block `b` as `d` has them. -/
def State.withBlock (s : State) (b : Block) (d : State) : State :=
  match b with
  | .enc => { s with enc := d.enc }
  | .dec => { s with dec := d.dec }

@[simp] theorem withBlock_self (s : State) (b : Block) : s.withBlock b s = s := by cases b <;> rfl

@[simp] theorem withBlock_withBlock (s d d' : State) (b : Block) :
    (s.withBlock b d).withBlock b d' = s.withBlock b d' := by cases b <;> rfl

/-- Once both blocks are written, only their two sources count. -/
theorem withBlock_comm (s d d' : State) {b c : Block} (h : b ≠ c) :
    (s.withBlock b d).withBlock c d' = (s.withBlock c d').withBlock b d := by
  cases b with
  | enc => cases c with
    | enc => exact absurd rfl h
    | dec => rfl
  | dec => cases c with
    | enc => rfl
    | dec => exact absurd rfl h

/-- An operation writes its own block alone (R22). -/
theorem Effect.eq_withBlock {s t : State} {i : Instr} (h : Effect s i t) : t = s.withBlock i.block t := by
  cases h <;> rfl

/-- An operation does not read the other block: whatever that holds stands by (R22). -/
theorem Effect.withBlock {s t : State} {i : Instr} (h : Effect s i t) {b : Block} (hb : b ≠ i.block) (d : State) :
    Effect (s.withBlock b d) i (t.withBlock b d) := by
  cases b with
  | enc =>
    cases h with
    | encNop | encDiscarded | encRaised | encAppended | encEndDiscarded | encDelivered | encCleared =>
      exact absurd rfl hb
    | decNop => exact .decNop
    | decDiscarded b closed => exact .decDiscarded (s := s.withBlock .enc d) b closed
    | decRaised b opened above => exact .decRaised (s := s.withBlock .enc d) b opened above
    | decContinued b opened pass cont => exact .decContinued (s := s.withBlock .enc d) b opened pass cont
    | decCompleted b opened pass terminal fit =>
      exact .decCompleted (s := s.withBlock .enc d) b opened pass terminal fit
    | decEndDiscarded closed => exact .decEndDiscarded (s := s.withBlock .enc d) closed
    | decEmpty opened unseen => exact .decEmpty (s := s.withBlock .enc d) opened unseen
    | decIncomplete opened seen inside => exact .decIncomplete (s := s.withBlock .enc d) opened seen inside
    | decDelivered opened seen boundary => exact .decDelivered (s := s.withBlock .enc d) opened seen boundary
    | decCleared => exact .decCleared (s := s.withBlock .enc d)
  | dec =>
    cases h with
    | decNop | decDiscarded | decRaised | decContinued | decCompleted | decEndDiscarded | decEmpty | decIncomplete
    | decDelivered | decCleared => exact absurd rfl hb
    | encNop => exact .encNop
    | encDiscarded v closed => exact .encDiscarded (s := s.withBlock .dec d) v closed
    | encRaised v opened above => exact .encRaised (s := s.withBlock .dec d) v opened above
    | encAppended v opened inRange fit => exact .encAppended (s := s.withBlock .dec d) v opened inRange fit
    | encEndDiscarded closed => exact .encEndDiscarded (s := s.withBlock .dec d) closed
    | encDelivered opened => exact .encDelivered (s := s.withBlock .dec d) opened
    | encCleared => exact .encCleared (s := s.withBlock .dec d)

/-- Two effects in different blocks may be taken in the other order. -/
theorem Effect.swap {s u t : State} {i j : Instr} (hij : i.block ≠ j.block) (hi : Effect s i u) (hj : Effect u j t) :
    ∃ v, Effect s j v ∧ Effect v i t := by
  have hu := hi.eq_withBlock
  have ht := hj.eq_withBlock
  have back : u.withBlock i.block s = s := by rw [hu, withBlock_withBlock, withBlock_self]
  have start : s.withBlock j.block t = t.withBlock i.block s := by
    calc s.withBlock j.block t
        = (u.withBlock i.block s).withBlock j.block t := by rw [back]
      _ = (u.withBlock j.block t).withBlock i.block s := withBlock_comm u s t hij
      _ = t.withBlock i.block s := by rw [← ht]
  have hj' := hj.withBlock hij s
  have hi' := hi.withBlock hij.symm t
  rw [back] at hj'
  rw [← ht, start] at hi'
  exact ⟨_, hj', hi'⟩

/-- Settles O20: the two effects swap, in either direction. -/
theorem operationsOfTheTwoBlocksCommute : Obligations.OperationsOfTheTwoBlocksCommute := by
  intro i j s t hi hj
  have swap {i j : Instr} (hij : i.block ≠ j.block) (h : andThen (exec i s) (exec j) = .next t) :
      andThen (exec j s) (exec i) = .next t := by
    obtain ⟨u, hu, ht⟩ := andThen_eq_next.1 h
    obtain ⟨v, hv, hvt⟩ := (effect_of_exec hu).swap hij (effect_of_exec ht)
    exact andThen_eq_next.2 ⟨v, exec_of_effect hv, exec_of_effect hvt⟩
  have hij : i.block ≠ j.block := by rw [hi, hj]; decide
  exact ⟨swap hij, swap hij.symm⟩

end Sys2Proof.Machine
end

section
/-! PROOFS. The result spaces are append-only, and what repeating an operation adds (20_memory.md R53, R63). -/

namespace Sys2Proof.Machine

theorem encodeLoop_length_le (n r : Nat) (w : List Byte) : (encodeLoop n r w).length ≤ n + w.length := by
  induction n generalizing r w with
  | zero => simp [encodeLoop]
  | succ n ih =>
    rcases Nat.eq_zero_or_pos r with rfl | h
    · rw [encodeLoop_zero]; omega
    · rw [encodeLoop_succ n h]
      have := ih (r / 128) (contByte (r % 128) :: w)
      rw [List.length_cons] at this
      omega

/-- A number takes at most five bytes (R101). -/
theorem encodeOne_length_le (v : Nat) : (encodeOne v).length ≤ 5 := by
  rw [encodeOne_eq]
  exact encodeLoop_length_le 4 _ [_]

/-- A result space after an operation is the old content with at most `most` elements after it, added only where
`may` allows, or has been emptied where `cleared` says so (R53). -/
def AppendOnly {α : Type} (old new : List α) (most : Nat) (may cleared : Prop) : Prop :=
  (∃ added, new = old ++ added ∧ added.length ≤ most ∧ (added ≠ [] → may)) ∨ (new = [] ∧ cleared)

theorem AppendOnly.kept {α : Type} {old : List α} {most : Nat} {may cleared : Prop} :
    AppendOnly old old most may cleared :=
  .inl ⟨[], (List.append_nil old).symm, Nat.zero_le most, fun h => absurd rfl h⟩

theorem AppendOnly.appended {α : Type} {old added : List α} {most : Nat} {may cleared : Prop}
    (hl : added.length ≤ most) (hm : may) : AppendOnly old (old ++ added) most may cleared :=
  .inl ⟨added, rfl, hl, fun _ => hm⟩

theorem AppendOnly.emptied {α : Type} {old : List α} {most : Nat} {may cleared : Prop} (hc : cleared) :
    AppendOnly old [] most may cleared :=
  .inr ⟨rfl, hc⟩

theorem Effect.obuf_appendOnly {s t : State} {i : Instr} (h : Effect s i t) :
    AppendOnly s.enc.obuf t.enc.obuf 5 (s.enc.phase = .opened ∧ ∃ v, i = .encPush v)
      (i = .encClr ∨ (s.enc.phase = .opened ∧ t.enc.phase = .err)) := by
  cases h with
  | encAppended v opened => exact .appended (encodeOne_length_le v) ⟨opened, v, rfl⟩
  | encRaised v opened => exact .emptied (.inr ⟨opened, rfl⟩)
  | encCleared => exact .emptied (.inl rfl)
  | encNop | encDiscarded | encEndDiscarded | encDelivered => exact .kept
  | decNop | decDiscarded | decRaised | decContinued | decCompleted | decEndDiscarded | decEmpty | decIncomplete
  | decDelivered | decCleared => exact .kept

theorem Effect.rbuf_appendOnly {s t : State} {i : Instr} (h : Effect s i t) :
    AppendOnly s.dec.rbuf t.dec.rbuf 1 (s.dec.phase = .opened ∧ ∃ b : Byte, b.toNat < 128 ∧ i = .decPush b)
      (i = .decClr ∨ (s.dec.phase = .opened ∧ t.dec.phase = .err)) := by
  cases h with
  | decCompleted b opened _ terminal =>
    have hb : b.toNat < 128 := by simpa [contFlag_eq] using terminal
    exact .appended le_rfl ⟨opened, b, hb, rfl⟩
  | decRaised _ opened | decEmpty opened | decIncomplete opened => exact .emptied (.inr ⟨opened, rfl⟩)
  | decCleared => exact .emptied (.inl rfl)
  | decNop | decDiscarded | decContinued | decEndDiscarded | decDelivered => exact .kept
  | encNop | encDiscarded | encRaised | encAppended | encEndDiscarded | encDelivered | encCleared => exact .kept

/-- Settles O21, from the effects an operation can have, space by space. -/
theorem resultSpacesAreAppendOnly : Obligations.ResultSpacesAreAppendOnly := by
  intro i s t h
  have e := effect_of_exec h
  exact ⟨e.obuf_appendOnly, e.rbuf_appendOnly⟩

/-- What an operation that is no `PUSH` into an open call does, it does to its own result again (R63). -/
theorem Effect.again {s t : State} {i : Instr} (h : Effect s i t)
    (hi : i.op ≠ .push ∨ s.phase i.block ≠ .opened) : Effect t i t := by
  cases h with
  | encNop => exact .encNop
  | encDiscarded v closed => exact .encDiscarded v closed
  | encRaised _ opened | encAppended _ opened => exact (hi.elim (· rfl) (· opened)).elim
  | encEndDiscarded closed => exact .encEndDiscarded closed
  | encDelivered => exact .encEndDiscarded nofun
  | encCleared => exact .encCleared (s := clear .enc s)
  | decNop => exact .decNop
  | decDiscarded b closed => exact .decDiscarded b closed
  | decRaised _ opened | decContinued _ opened | decCompleted _ opened => exact (hi.elim (· rfl) (· opened)).elim
  | decEndDiscarded closed => exact .decEndDiscarded closed
  | decEmpty | decIncomplete | decDelivered => exact .decEndDiscarded nofun
  | decCleared => exact .decCleared (s := clear .dec s)

/-- Settles O25: the effect repeats. -/
theorem repeatingChangesNothingMore : Obligations.RepeatingChangesNothingMore :=
  fun _ _ _ hi h => exec_of_effect ((effect_of_exec h).again hi)

end Sys2Proof.Machine
end

section
/-! PROOFS. The read ports (20_memory.md R54, R55). -/

namespace Sys2Proof.Machine

theorem encRead_of_done {s : State} (hp : s.enc.phase = .done) {k : Nat} (h : k < s.enc.obuf.length) :
    s.encRead k = { valid := true, data := s.enc.obuf[k] } := by
  rw [State.encRead, hp, readPort_done 8 k _ h]

theorem decRead_of_done {s : State} (hp : s.dec.phase = .done) {k : Nat} (h : k < s.dec.rbuf.length) :
    s.decRead k = { valid := true, data := s.dec.rbuf[k] } := by
  rw [State.decRead, hp, readPort_done 32 k _ h]

/-- Outside the delivered result: not in `DONE`, or past the end. -/
theorem readPort_of_not_delivered (n k : Nat) {p : Phase} {buf : List (BitVec n)}
    (h : p ≠ .done ∨ buf.length ≤ k) : readPort n p buf k = { valid := false, data := 0 } :=
  readPort_outside n k p buf fun hp => h.resolve_left fun hne => hne hp

/-- Settles O22, port by port. -/
theorem readPortsAnswerOnlyTheDeliveredResult : Obligations.ReadPortsAnswerOnlyTheDeliveredResult :=
  fun _ k => ⟨fun hp _ => encRead_of_done hp _, readPort_of_not_delivered 8 k,
    fun hp _ => decRead_of_done hp _, readPort_of_not_delivered 32 k⟩

end Sys2Proof.Machine
end

section
/-! PROOFS. The round trip through both blocks and both read ports (43_calls.md R152, R155, R156;
70_reset_and_hazards.md R206). -/

namespace Sys2Proof.Machine

/-! ### The encode call -/

/-- Pushes of values in range that fit the capacity append their encodings (R104, R152). -/
theorem runOps_encPushes {xs : List Nat} {s : State} (opened : s.enc.phase = .opened) (hx : ∀ x ∈ xs, x ≤ maxValue)
    (fit : fits s.cfg.encCap (s.enc.obuf.length + (xs.flatMap encodeOne).length) = true) :
    runOps (xs.map .encPush) s =
      .next { s with enc := { s.enc with obuf := s.enc.obuf ++ xs.flatMap encodeOne } } := by
  induction xs generalizing s with
  | nil => simp
  | cons x xs ih =>
    obtain ⟨hx, hxs⟩ := List.forall_mem_cons.1 hx
    rw [List.flatMap_cons, List.length_append, ← Nat.add_assoc] at fit
    have hpush := exec_of_effect (.encAppended x opened hx (fits_mono fit (Nat.le_add_right _ _)))
    have hrest := ih (s := { s with enc := { s.enc with obuf := s.enc.obuf ++ encodeOne x } }) opened hxs
      (by rwa [List.length_append])
    rw [List.map_cons, runOps_cons, hpush, andThen_next, hrest]
    simp

/-- An encode call of values in range that fit the capacity ends in `DONE` with the encodings (R152). -/
theorem runOps_encodeCall {xs : List Nat} (s : State) (hx : ∀ x ∈ xs, x ≤ maxValue)
    (fit : fits s.cfg.encCap (xs.flatMap encodeOne).length = true) :
    runOps (encodeCall xs) s =
      .next { s with enc := { phase := .done, err := .none, obuf := xs.flatMap encodeOne } } := by
  have hpush := runOps_encPushes (s := clear .enc s) rfl hx (by simpa [Enc.reset] using fit)
  have hclr : exec .encClr s = .next (clear .enc s) := rfl
  rw [encodeCall, runOps_cons, hclr, andThen_next, runOps_append, hpush]
  rfl

/-- A host that reads every index below `len` has the whole result (R206). -/
theorem readOut_of_done {s : State} (hp : s.enc.phase = .done) : readOut s = s.enc.obuf := by
  apply List.ext_getElem
  · simp [readOut, hp]
  · intro k _ hk
    simp [readOut, encRead_of_done hp hk]

/-! ### A decode call of minimal numbers -/

/-- The open `DEC` has delivered `ws` and stands at a boundary (`r` = 0), or inside a number whose first group is not
0, with the value `r` of the groups read. There both values of `MSB_LATCH` agree, and `dec_off + dec_msb` is the bit
length of `r` with one group more (R39, R124). -/
structure Dec.Reading (d : Dec) (ws : List Word) (r : Nat) : Prop where
  opened : d.phase = .opened
  rbuf : d.rbuf = ws
  acc : d.acc.toNat = r
  boundary : r = 0 → d.off = 0
  inside : r ≠ 0 → bitLen r + 7 = d.off.toNat + d.msb.toNat

section
variable {s : State} {ws : List Word} {r : Nat} (h : s.dec.Reading ws r) (b : Byte)
include h

/-- The overflow check compares the bit length of the number with the byte's group under it (R125). -/
theorem Dec.Reading.off_add_nextMsb : s.dec.off.toNat + nextMsb s b = bitLen (r * 128 + group b) := by
  rcases Nat.eq_zero_or_pos r with hr | hr
  · have hacc : s.dec.acc = 0 := BitVec.eq_of_toNat_eq (h.acc.trans hr)
    simp [nextMsb_of_boundary (h.boundary hr) hacc, h.boundary hr, hr]
  · have hin := h.inside hr.ne'
    have hmsb := s.dec.msb.isLt
    have hpos := bitLen_pos.2 hr
    have hoff : s.dec.off ≠ 0 := fun h0 => by rw [h0] at hin; simp at hin; omega
    have hacc : s.dec.acc ≠ 0 := fun h0 => by have := h.acc; rw [h0] at this; simp at this; omega
    rw [nextMsb_of_inside hoff hacc, bitLen_mul_add hr (group_lt b), hin]

variable {b} (hv : r * 128 + group b < 2 ^ 32)
include hv

theorem Dec.Reading.off_add_nextMsb_le : s.dec.off.toNat + nextMsb s b ≤ 32 := by
  rw [h.off_add_nextMsb b]; exact bitLen_le_iff.2 hv

theorem Dec.Reading.toNat_accumulate : (accumulate s.dec.acc (group b)).toNat = r * 128 + group b := by
  rw [accumulate_toNat _ (group_lt b), h.acc, Nat.mod_eq_of_lt hv]

/-- A continuation byte that leaves the number not 0 goes into it (R127). -/
theorem Dec.Reading.continued (hc : contFlag b = true) (hpos : 0 < r * 128 + group b) :
    ∃ t, exec (.decPush b) s = .next t ∧ t.dec.Reading ws (r * 128 + group b) := by
  have pass := h.off_add_nextMsb_le hv
  refine ⟨_, exec_of_effect (.decContinued b h.opened pass hc), ?_⟩
  have hoff : (s.dec.off + 7).toNat = s.dec.off.toNat + 7 := by
    rw [BitVec.toNat_add]; exact Nat.mod_eq_of_lt (by simp; omega)
  exact
    { opened := h.opened
      rbuf := h.rbuf
      acc := h.toNat_accumulate hv
      boundary := fun h0 => absurd h0 hpos.ne'
      inside := fun _ => by
        simp only [continueNumber_dec, latchGroup_dec, hoff, latchedMsb_toNat, ← h.off_add_nextMsb b]
        omega }

/-- A terminal byte delivers the number, where the capacity has room for one more (R127). -/
theorem Dec.Reading.completed (ht : contFlag b = false) (fit : fits s.cfg.decCap (ws.length + 1) = true) :
    ∃ t, exec (.decPush b) s = .next t ∧ t.dec.Reading (ws ++ [BitVec.ofNat 32 (r * 128 + group b)]) 0 := by
  have pass := h.off_add_nextMsb_le hv
  refine ⟨_, exec_of_effect (.decCompleted b h.opened pass ht (by rwa [h.rbuf])), ?_⟩
  have hword : accumulate s.dec.acc (group b) = BitVec.ofNat 32 (r * 128 + group b) := by
    rw [← h.toNat_accumulate hv, BitVec.ofNat_toNat, BitVec.setWidth_eq]
  exact
    { opened := h.opened
      rbuf := by rw [hword, h.rbuf]
      acc := rfl
      boundary := fun _ => rfl
      inside := fun h0 => absurd rfl h0 }

end

/-- The continuation bytes of `EncodeOne` bring the upper groups into the accumulator. -/
theorem runOps_decPushes_encodeLoop {s : State} {ws : List Word} (h : s.dec.Reading ws 0) {n r : Nat}
    (hn : r < 128 ^ n) (hr : r < 2 ^ 32) :
    ∃ t, runOps ((encodeLoop n r []).map .decPush) s = .next t ∧ t.dec.Reading ws r := by
  induction n generalizing r with
  | zero =>
    obtain rfl : r = 0 := by simpa using hn
    exact ⟨s, rfl, h⟩
  | succ n ih =>
    rcases Nat.eq_zero_or_pos r with rfl | hpos
    · exact ⟨s, by rw [encodeLoop_zero]; rfl, h⟩
    · obtain ⟨u, hu, hread⟩ := ih (r := r / 128)
        (by rwa [Nat.div_lt_iff_lt_mul (by norm_num), ← Nat.pow_succ]) (by omega)
      have hlt : r % 128 < 128 := Nat.mod_lt _ (by norm_num)
      have hg := group_contByte hlt
      have hval : r / 128 * 128 + group (contByte (r % 128)) = r := by omega
      obtain ⟨t, ht, hread'⟩ := hread.continued (b := contByte (r % 128)) (by omega)
        (contFlag_contByte hlt) (by omega)
      refine ⟨t, ?_, hval ▸ hread'⟩
      rw [encodeLoop_succ_append n hpos, List.map_append, runOps_append, hu, andThen_next, List.map_singleton,
        runOps_cons, ht]
      rfl

/-- The bytes of `EncodeOne v` deliver `v` (R155, R157). -/
theorem runOps_decPushes_encodeOne {s : State} {ws : List Word} (h : s.dec.Reading ws 0) {v : Nat}
    (hv : v ≤ maxValue) (fit : fits s.cfg.decCap (ws.length + 1) = true) :
    ∃ t, runOps ((encodeOne v).map .decPush) s = .next t ∧ t.dec.Reading (ws ++ [BitVec.ofNat 32 v]) 0 := by
  have hmax : v < 2 ^ 32 := Nat.lt_succ_of_le hv
  obtain ⟨u, hu, hread⟩ := runOps_decPushes_encodeLoop h (n := 4) (r := v / 128) (by omega) (by omega)
  have hlt : v % 128 < 128 := Nat.mod_lt _ (by norm_num)
  have hg := group_termByte hlt
  have hval : v / 128 * 128 + group (termByte (v % 128)) = v := by omega
  obtain ⟨t, ht, hread'⟩ := hread.completed (b := termByte (v % 128)) (by omega)
    (contFlag_termByte hlt) (by rwa [runOps_cfg_eq hu])
  refine ⟨t, ?_, hval ▸ hread'⟩
  rw [encodeOne_eq_append, List.map_append, runOps_append, hu, andThen_next, List.map_singleton, runOps_cons, ht]
  rfl

/-- The bytes of a sequence in range deliver the sequence, where it fits the capacity (R155, R157). -/
theorem runOps_decPushes_flatMap {xs : List Nat} {s : State} {ws : List Word} (h : s.dec.Reading ws 0)
    (hx : ∀ x ∈ xs, x ≤ maxValue) (fit : fits s.cfg.decCap (ws.length + xs.length) = true) :
    ∃ t, runOps ((xs.flatMap encodeOne).map .decPush) s = .next t ∧
      t.dec.Reading (ws ++ xs.map (BitVec.ofNat 32)) 0 := by
  induction xs generalizing s ws with
  | nil => exact ⟨s, rfl, by simpa using h⟩
  | cons x xs ih =>
    obtain ⟨hx, hxs⟩ := List.forall_mem_cons.1 hx
    rw [List.length_cons] at fit
    obtain ⟨u, hu, hread⟩ := runOps_decPushes_encodeOne h hx (fits_mono fit (by omega))
    have fit' : fits u.cfg.decCap ((ws ++ [BitVec.ofNat 32 x]).length + xs.length) = true := by
      rw [runOps_cfg_eq hu, List.length_append, List.length_singleton]
      exact fits_mono fit (by omega)
    obtain ⟨t, ht, hread'⟩ := ih hread hxs fit'
    refine ⟨t, ?_, by simpa using hread'⟩
    rw [List.flatMap_cons, List.map_append, runOps_append, hu, andThen_next, ht]

theorem Dec.Reading.reset : Dec.reset.Reading [] 0 where
  opened := rfl
  rbuf := rfl
  acc := rfl
  boundary := fun _ => rfl
  inside := fun h0 => absurd rfl h0

/-- A decode call with the encodings of a non-empty sequence in range ends in `DONE` without an error and with the
sequence; that a byte was seen, and no error raised, the invariant knows (R37, R155). -/
theorem runOps_decodeCall_flatMap {xs : List Nat} (s : State) (hne : xs ≠ []) (hx : ∀ x ∈ xs, x ≤ maxValue)
    (fit : fits s.cfg.decCap xs.length = true) :
    ∃ u, runOps (decodeCall (xs.flatMap encodeOne)) s = .next u ∧
      u.dec.phase = .done ∧ u.dec.err = .none ∧ u.dec.rbuf = xs.map (BitVec.ofNat 32) := by
  have hclr : exec .decClr s = .next (clear .dec s) := rfl
  obtain ⟨t, ht, hread⟩ := runOps_decPushes_flatMap (s := clear .dec s) Dec.Reading.reset hx (by simpa using fit)
  have inv := runOps_dec_inv ht (Dec.reset_inv _)
  have hoff := hread.boundary rfl
  have hseen : t.dec.seen = true := by
    by_contra hs
    have hempty := (inv.seen.1 hread.opened).1 (Bool.eq_false_of_not_eq_true hs)
    simp [hread.rbuf, hne] at hempty
  have hend := exec_of_effect (.decDelivered hread.opened hseen hoff)
  have herr := err_eq_none_of_opened inv hread.opened
  refine ⟨deliver .dec t, ?_, rfl, herr, hread.rbuf⟩
  rw [decodeCall, runOps_cons, hclr, andThen_next, runOps_append, ht, andThen_next, runOps_cons, hend]
  rfl

/-- Settles O40: the encode call ends with the encodings, the host reads them all, and the decode call with them ends
with the integers. -/
theorem roundTripThroughBothBlocks : Obligations.RoundTripThroughBothBlocks := by
  intro s xs hne hx hencCap hdecCap
  have henc := runOps_encodeCall s hx (fits_iff.2 hencCap)
  set t : State := { s with enc := { phase := .done, err := .none, obuf := xs.flatMap encodeOne } }
  have hread : readOut t = xs.flatMap encodeOne := readOut_of_done rfl
  obtain ⟨u, hu, hphase, herr, hrbuf⟩ := runOps_decodeCall_flatMap t hne hx (fits_iff.2 hdecCap)
  refine ⟨t, u, henc, hread ▸ hu, ?_, ?_, ?_, fun k hk => ?_⟩
  · rw [hread]; rfl
  · simp [State.decOutputs, hphase, hrbuf]
  · simp [State.decOutputs, herr, ErrKind.code]
  · rw [decRead_of_done hphase (by simpa [hrbuf] using hk)]
    simp [hrbuf]

end Sys2Proof.Machine
end

section
/-! PROOFS. Command words: every word of a port is a code over a data field, and encoding is the inverse of decoding
(30_encoding.md R77 to R83). -/

namespace Sys2Proof

theorem Op.code_injective : Function.Injective Op.code := fun o p h =>
  Option.some_injective _ (by rw [← Op.ofCode_code o, h, Op.ofCode_code])

/-- All four codes are assigned (R81). -/
theorem Op.exists_code_eq {c : Nat} (h : c < 4) : ∃ o : Op, c = o.code := by
  cases hc : Op.ofCode c with
  | none => exact absurd (Op.ofCode_eq_none.1 hc) (Nat.not_le.2 h)
  | some o => exact ⟨o, Op.ofCode_eq_some.1 hc⟩

/-- The two bits above the data field are all a word of the port's width has besides (R77, R78). -/
theorem lt_two_pow_wordBits_iff {cfg : Config} {b : Block} {w : Nat} :
    w < 2 ^ wordBits cfg b ↔ w / 2 ^ dataBits cfg b < 4 := by
  rw [Nat.div_lt_iff_lt_mul (Nat.two_pow_pos _), wordBits, Nat.pow_add, Nat.mul_comm]

/-! ### The operation of a code and a data field -/

theorem Instr.wellFormed_ofFields {cfg : Config} {b : Block} {d : Nat} (h : d < 2 ^ dataBits cfg b) (o : Op) :
    (Instr.ofFields d b o).wellFormed cfg = true := by
  cases b with
  | enc => cases o with
    | push => exact decide_eq_true h
    | nop | finish | clear => rfl
  | dec => cases o <;> rfl

theorem Instr.data_ofFields_push {cfg : Config} {b : Block} {d : Nat} (h : d < 2 ^ dataBits cfg b) :
    (Instr.ofFields d b .push).data = d := by
  cases b with
  | enc => rfl
  | dec => exact (BitVec.toNat_ofNat d 8).trans (Nat.mod_eq_of_lt h)

/-- Only `PUSH` uses the data field (R82). -/
theorem Instr.ofFields_of_ne_push {o : Op} (h : o ≠ .push) (d d' : Nat) (b : Block) :
    Instr.ofFields d b o = Instr.ofFields d' b o := by
  cases o with
  | push => exact absurd rfl h
  | nop | finish | clear => cases b <;> rfl

theorem Instr.data_of_ne_push {i : Instr} (h : i.op ≠ .push) : i.data = 0 := by
  cases i with
  | encPush | decPush => exact absurd rfl h
  | encNop | encEnd | encClr | decNop | decEnd | decClr => rfl

theorem encode_mod {cfg : Config} {i : Instr} (h : i.wellFormed cfg = true) :
    encode cfg i % 2 ^ dataBits cfg i.block = i.data := word_data _ (Instr.data_lt h)

/-! ### The decoder, by the code field -/

theorem decode_of_code {cfg : Config} {b : Block} {w : Nat} {o : Op} (h : w / 2 ^ dataBits cfg b = o.code) :
    decode cfg b w = .ok (Instr.ofFields (w % 2 ^ dataBits cfg b) b o) :=
  decode_eq_ok.2 ⟨o, (Nat.shiftRight_eq_div_pow _ _).trans h, rfl⟩

/-- Every word of the port's width decodes (R81). -/
theorem exists_decode_of_lt {cfg : Config} {b : Block} {w : Nat} (h : w < 2 ^ wordBits cfg b) :
    ∃ o : Op, w / 2 ^ dataBits cfg b = o.code ∧
      decode cfg b w = .ok (Instr.ofFields (w % 2 ^ dataBits cfg b) b o) := by
  obtain ⟨o, ho⟩ := Op.exists_code_eq (lt_two_pow_wordBits_iff.1 h)
  exact ⟨o, ho, decode_of_code ho⟩

/-- A wider number does not (log entry 5): its code field would be no code. -/
theorem decode_of_wide {cfg : Config} {b : Block} {w : Nat} (h : 2 ^ wordBits cfg b ≤ w) :
    decode cfg b w = .error .wordTooWide := by
  cases hd : decode cfg b w with
  | error e => cases e; rfl
  | ok i =>
    obtain ⟨o, ho, -⟩ := decode_eq_ok.1 hd
    rw [Nat.shiftRight_eq_div_pow] at ho
    exact absurd h (Nat.not_le.2 (lt_two_pow_wordBits_iff.2 (ho ▸ o.code_lt)))

/-! ### The statements -/

/-- Settles O1: the word of a well-formed operation holds its two fields, which decoding reads back. -/
theorem decodeOfEncodeIsTheOperation : Obligations.DecodeOfEncodeIsTheOperation :=
  fun cfg i h => ⟨Laws.EncodeFits.of_data i cfg h, decode_encode h⟩

/-- Settles O2: the code field is one of four codes exactly where the number is no wider than the port. -/
theorem everyCommandWordDecodes : Obligations.EveryCommandWordDecodes := by
  refine fun cfg => ⟨rfl, rfl, fun b w => ⟨fun hw => ?_, decode_of_wide⟩⟩
  obtain ⟨o, ho, hdec⟩ := exists_decode_of_lt hw
  have hd : w % 2 ^ dataBits cfg b < 2 ^ dataBits cfg b := Nat.mod_lt _ (Nat.two_pow_pos _)
  have hop (p : Op) : (Instr.ofFields (w % 2 ^ dataBits cfg b) b o).op = p ↔ w / 2 ^ dataBits cfg b = p.code := by
    rw [Instr.op_ofFields, ho, Op.code_injective.eq_iff]
  refine ⟨_, hdec, Instr.block_ofFields _ b o, Instr.wellFormed_ofFields hd o,
    hop .nop, hop .push, hop .finish, hop .clear, fun hpush => ?_⟩
  rw [Instr.op_ofFields] at hpush
  rw [hpush, Instr.data_ofFields_push hd]

/-- Settles O3: both words decode by the same code, and without `PUSH` the data field does not count. -/
theorem ignoredDataGivesOneOperation : Obligations.IgnoredDataGivesOneOperation := by
  intro cfg b w w' hw hcode hne
  obtain ⟨o, ho, hdec⟩ := exists_decode_of_lt hw
  have hpush : o ≠ .push := by rintro rfl; exact hne ho
  have hdec' := decode_of_code (hcode.symm.trans ho)
  rw [Instr.ofFields_of_ne_push hpush _ (w % 2 ^ dataBits cfg b)] at hdec'
  have hwf := Instr.wellFormed_ofFields (cfg := cfg) (b := b) (Nat.mod_lt w (Nat.two_pow_pos _)) o
  have hzero := encode_mod hwf
  rw [Instr.data_of_ne_push (by rwa [Instr.op_ofFields]), Instr.block_ofFields] at hzero
  exact ⟨_, hdec, hdec', hzero⟩

/-- A table word with a code and a data field decodes to the operation of the two at its port. -/
theorem decodeTableWord_of_code {nbits w : Nat} {o : Op}
    (h : w / 2 ^ dataBits Config.normative (tablePort nbits) = o.code) :
    decodeTableWord nbits w =
      some (Instr.ofFields (w % 2 ^ dataBits Config.normative (tablePort nbits)) (tablePort nbits) o) := by
  rw [decodeTableWord, decode_of_code h]; rfl

/-- Settles O4: the code field of each word is the code of its operation, and its data field the operand. -/
theorem specCommandWordsDecode : Obligations.SpecCommandWordsDecode :=
  ⟨decodeTableWord_of_code (o := .nop) rfl, decodeTableWord_of_code (o := .push) rfl,
    decodeTableWord_of_code (o := .push) rfl, decodeTableWord_of_code (o := .finish) rfl,
    decodeTableWord_of_code (o := .clear) rfl, decodeTableWord_of_code (o := .nop) rfl,
    decodeTableWord_of_code (o := .push) rfl, decodeTableWord_of_code (o := .finish) rfl,
    decodeTableWord_of_code (o := .clear) rfl, decode_of_code (o := .push) rfl, decode_of_code (o := .finish) rfl⟩

end Sys2Proof
end

section
/-! PROOFS. Where a step can stop: an operation only for capacity, and a cycle of fitting signals only where an
operation does (30_encoding.md R81; 70_reset_and_hazards.md R209). -/

namespace Sys2Proof

/-- The capacity of a block's result space (R5). -/
def Config.cap (cfg : Config) : Block → Option Nat
  | .enc => cfg.encCap
  | .dec => cfg.decCap

end Sys2Proof

namespace Sys2Proof.Machine

/-- An operation goes on, or is refused where its result does not fit the capacity (R104, R122, R209). -/
theorem exec_next_or_refused (i : Instr) (s : State) :
    (∃ t, exec i s = .next t) ∨
    ∃ b n, fits (s.cfg.cap b) n = false ∧ exec i s = .refused (.overCapacity b) := by
  cases i with
  | encNop | encClr | decNop | decClr => exact .inl ⟨_, rfl⟩
  | encPush v =>
    rcases execEncPush_cases v s with ⟨-, e⟩ | ⟨-, -, e⟩ | ⟨-, -, e⟩
    · exact .inl ⟨_, e⟩
    · exact .inl ⟨_, e⟩
    · rcases appendBytes_cases (encodeOne v) s with ⟨-, e'⟩ | ⟨hf, e'⟩
      · exact .inl ⟨_, e.trans e'⟩
      · exact .inr ⟨.enc, _, hf, e.trans e'⟩
  | encEnd => rcases execEncEnd_cases s with ⟨-, e⟩ | ⟨-, e⟩ <;> exact .inl ⟨_, e⟩
  | decPush b =>
    rcases execDecPush_cases b s with ⟨-, e⟩ | ⟨-, -, e⟩ | ⟨-, -, -, e⟩ | ⟨-, -, -, e⟩
    · exact .inl ⟨_, e⟩
    · exact .inl ⟨_, e⟩
    · exact .inl ⟨_, e⟩
    · rcases completeNumber_cases (accumulate s.dec.acc (group b)) (latchGroup b s) with ⟨-, e'⟩ | ⟨hf, e'⟩
      · exact .inl ⟨_, e.trans e'⟩
      · exact .inr ⟨.dec, _, hf, e.trans e'⟩
  | decEnd =>
    rcases execDecEnd_cases s with ⟨-, e⟩ | ⟨-, -, e⟩ | ⟨-, -, -, e⟩ | ⟨-, -, -, e⟩ <;> exact .inl ⟨_, e⟩

theorem exec_ne_fault (i : Instr) (s : State) (r : Fault) : exec i s ≠ .fault r := by
  rcases exec_next_or_refused i s with ⟨t, e⟩ | ⟨b, n, -, e⟩ <;> rw [e] <;> exact nofun

/-- With unbounded capacities every operation goes on (R209). -/
theorem exec_next_of_unbounded {s : State} (h : ∀ b, s.cfg.cap b = none) (i : Instr) : ∃ t, exec i s = .next t := by
  rcases exec_next_or_refused i s with hnext | ⟨b, n, hf, -⟩
  · exact hnext
  · rw [h b] at hf; cases hf

theorem andThen_ne_fault {o : Result} {f : State → Result} {r : Fault} (ho : o ≠ .fault r)
    (hf : ∀ t, f t ≠ .fault r) : andThen o f ≠ .fault r := by
  cases o with
  | next t => exact hf t
  | fault r' => exact ho
  | refused r' => exact nofun

theorem fitsPorts_iff {cfg : Config} {c : Cycle} : c.fitsPorts cfg = true ↔
    c.encWord < 2 ^ wordBits cfg .enc ∧ c.decWord < 2 ^ wordBits cfg .dec ∧ c.fitsIndices cfg = true := by
  simp [Cycle.fitsPorts, and_assoc]

/-- Fitting signals are a reset, or an operation at each port (R81, R200). -/
theorem step_of_fitsPorts {s : State} (h : s.cycle.fitsPorts s.cfg = true) :
    step s = .next (resetBlocks s.advance) ∨ ∃ i j, step s = andThen (exec i s.advance) (exec j) := by
  obtain ⟨henc, hdec, hidx⟩ := fitsPorts_iff.1 h
  obtain ⟨o, -, hi⟩ := exists_decode_of_lt henc
  obtain ⟨p, -, hj⟩ := exists_decode_of_lt hdec
  rcases s.cycle.rst.eq_false_or_eq_true with hr | hr
  · exact .inl (if_pos hr)
  · exact .inr ⟨_, _, step_of_decode hr hidx hi hj⟩

/-- Settles O27: the presented words decode, and no operation faults. -/
theorem fittingSignalsNeverFault : Obligations.FittingSignalsNeverFault := by
  intro s h
  rcases step_of_fitsPorts h with hstep | ⟨i, j, hstep⟩
  · rw [hstep]
    exact ⟨nofun, fun _ _ => ⟨_, rfl⟩⟩
  · rw [hstep]
    refine ⟨fun r => andThen_ne_fault (exec_ne_fault i _ r) fun t => exec_ne_fault j t r, fun henc hdec => ?_⟩
    have hcap : ∀ b, s.cfg.cap b = none := fun b => by cases b <;> assumption
    obtain ⟨u, hu⟩ := exec_next_of_unbounded (s := s.advance) hcap i
    have hcfg : u.cfg = s.cfg := (effect_of_exec hu).cfg_eq
    obtain ⟨t, ht⟩ := exec_next_of_unbounded (hcfg ▸ hcap) j
    exact ⟨t, andThen_eq_next.2 ⟨u, hu, ht⟩⟩

end Sys2Proof.Machine
end

section
/-! PROOFS. `EncodeOne` gives the one encoded number of a value that is not padded, and the shortest of all
(30_encoding.md R71, R72, R75). -/

namespace Sys2Proof.Machine

/-! ### The value of a run and its length -/

theorem runValue_lt (c : List Byte) : runValue c < 128 ^ c.length := by
  induction c with
  | nil => exact Nat.one_pos
  | cons b c ih =>
    have hg : group b * 128 ^ c.length ≤ 127 * 128 ^ c.length :=
      Nat.mul_le_mul_right _ (Nat.le_of_lt_succ (group_lt b))
    rw [runValue, List.length_cons, Nat.pow_succ]
    omega

theorem runValue_append_singleton (c : List Byte) (b : Byte) :
    runValue (c ++ [b]) = runValue c * 128 + group b := by
  rw [runValue_append]; simp [runValue]

/-- The last byte holds the value's low group, the others the bits above it. -/
theorem runValue_append_singleton_div (c : List Byte) (b : Byte) : runValue (c ++ [b]) / 128 = runValue c := by
  have := group_lt b
  rw [runValue_append_singleton]; omega

theorem runValue_append_singleton_mod (c : List Byte) (b : Byte) : runValue (c ++ [b]) % 128 = group b := by
  have := group_lt b
  rw [runValue_append_singleton]; omega

theorem runValue_pos {c : List Byte} (h : group (c.headD 0) ≠ 0) : 0 < runValue c := by
  cases c with
  | nil => exact absurd rfl h
  | cons b c =>
    have hb : 0 < group b := Nat.pos_of_ne_zero h
    rw [runValue]
    positivity

theorem isPadded_iff {c : List Byte} : isPadded c = true ↔ 2 ≤ c.length ∧ group (c.headD 0) = 0 := by
  simp [isPadded]

/-- A padded encoding stands for a value that fewer bytes hold (R75). -/
theorem runValue_lt_of_isPadded {c : List Byte} (h : isPadded c = true) : runValue c < 128 ^ (c.length - 1) := by
  obtain ⟨hlen, hg⟩ := isPadded_iff.1 h
  cases c with
  | nil => exact absurd hlen (by simp)
  | cons b c =>
    have hb : group b = 0 := hg
    rw [runValue, hb, Nat.zero_mul, Nat.zero_add]
    exact runValue_lt c

/-! ### A byte is rebuilt from its flag and its group (R70) -/

theorem contByte_group {b : Byte} (h : contFlag b = true) : contByte (group b) = b :=
  byte_ext ((contFlag_contByte (group_lt b)).trans h.symm) (group_contByte (group_lt b))

theorem termByte_group {b : Byte} (h : contFlag b = false) : termByte (group b) = b :=
  byte_ext ((contFlag_termByte (group_lt b)).trans h.symm) (group_termByte (group_lt b))

theorem headD_append_of_ne_nil {c : List Byte} (h : c ≠ []) (x : List Byte) : (c ++ x).headD 0 = c.headD 0 := by
  cases c with
  | nil => exact absurd rfl h
  | cons b c => rfl

/-! ### `EncodeOne` -/

theorem isNumber_encodeOne (v : Nat) : isNumber (encodeOne v) = true :=
  isNumber_iff.2 ⟨_, _, encodeOne_eq_append v, encodeLoop_allCont 4 _, contFlag_termByte (Nat.mod_lt _ (by norm_num))⟩

theorem runValue_encodeOne {v : Nat} (hv : v ≤ maxValue) : runValue (encodeOne v) = v := by
  have hmax : v < 2 ^ 32 := Nat.lt_succ_of_le hv
  rw [encodeOne_eq_append, runValue_append_singleton, runValue_encodeLoop (by omega),
    group_termByte (Nat.mod_lt _ (by norm_num))]
  omega

/-- The loop stops as soon as no bits remain. -/
theorem encodeLoop_length_le_of_lt (n : Nat) {r k : Nat} (h : r < 128 ^ k) : (encodeLoop n r []).length ≤ k := by
  induction n generalizing r k with
  | zero => exact Nat.zero_le k
  | succ n ih =>
    rcases Nat.eq_zero_or_pos r with rfl | hr
    · rw [encodeLoop_zero]; exact Nat.zero_le k
    · cases k with
      | zero => omega
      | succ k =>
        rw [encodeLoop_succ_append n hr, List.length_append]
        exact Nat.succ_le_succ (ih (by rwa [Nat.div_lt_iff_lt_mul (by norm_num), ← Nat.pow_succ]))

theorem encodeOne_length_le_of_lt {v k : Nat} (hk : 0 < k) (h : v < 128 ^ k) : (encodeOne v).length ≤ k := by
  obtain ⟨k, rfl⟩ := Nat.exists_eq_succ_of_ne_zero hk.ne'
  rw [encodeOne_eq_append, List.length_append]
  exact Nat.succ_le_succ
    (encodeLoop_length_le_of_lt 4 (by rwa [Nat.div_lt_iff_lt_mul (by norm_num), ← Nat.pow_succ]))

/-- A padded `EncodeOne` would be shorter than itself. -/
theorem isPadded_encodeOne {v : Nat} (hv : v ≤ maxValue) : isPadded (encodeOne v) = false := by
  refine Bool.eq_false_of_not_eq_true fun hp => ?_
  have hlt := runValue_lt_of_isPadded hp
  rw [runValue_encodeOne hv] at hlt
  have hlen := (isPadded_iff.1 hp).1
  have := encodeOne_length_le_of_lt (by omega) hlt
  omega

/-- Continuation bytes with a first group that is not 0 are those the loop gives for their value: the last of them is
its last byte, and the others are what it gives for the bits that remain. -/
theorem eq_encodeLoop {c : List Byte} (hc : AllCont c) (hlead : c ≠ [] → group (c.headD 0) ≠ 0) {n : Nat}
    (hn : runValue c < 128 ^ n) : c = encodeLoop n (runValue c) [] := by
  induction c using List.reverseRecOn generalizing n with
  | nil => exact (encodeLoop_zero n []).symm
  | append_singleton c y ih =>
    have hpos := runValue_pos (hlead (by simp))
    obtain ⟨hc, hy⟩ := List.forall_mem_append.1 hc
    cases n with
    | zero => omega
    | succ n =>
      have hlt : runValue c < 128 ^ n := by
        rwa [← runValue_append_singleton_div c y, Nat.div_lt_iff_lt_mul (by norm_num), ← Nat.pow_succ]
      have hlead' : c ≠ [] → group (c.headD 0) ≠ 0 := fun hne =>
        headD_append_of_ne_nil hne [y] ▸ hlead (by simp)
      rw [encodeLoop_succ_append n hpos, runValue_append_singleton_div, runValue_append_singleton_mod,
        ← ih hc hlead' hlt, contByte_group (hy y (by simp))]

/-- An encoded number that is not padded is `EncodeOne` of its value (R75). -/
theorem eq_encodeOne_of_not_padded {run : List Byte} (hn : isNumber run = true) (hp : isPadded run = false)
    (hv : runValue run ≤ maxValue) : run = encodeOne (runValue run) := by
  obtain ⟨c, b, rfl, hc, hb⟩ := isNumber_iff.1 hn
  have hlead : c ≠ [] → group (c.headD 0) ≠ 0 := fun hne h0 => by
    have hlen := List.length_pos_of_ne_nil hne
    have hpad := isPadded_iff.2 ⟨by simp; omega, (headD_append_of_ne_nil hne [b]).symm ▸ h0⟩
    exact Bool.false_ne_true (hp.symm.trans hpad)
  have hlt : runValue c < 128 ^ 4 := by
    have hmax : runValue (c ++ [b]) < 2 ^ 32 := Nat.lt_succ_of_le hv
    rw [← runValue_append_singleton_div c b]; omega
  rw [encodeOne_eq_append, runValue_append_singleton_div, runValue_append_singleton_mod,
    ← eq_encodeLoop hc hlead hlt, termByte_group hb]

/-- Settles O31: a run's value is below 128 to its length, so `EncodeOne` of it has no more bytes; and one that is not
padded is what the loop gives. -/
theorem encodeOneIsTheMinimalNumber : Obligations.EncodeOneIsTheMinimalNumber := by
  intro v hv
  refine ⟨isNumber_encodeOne v, runValue_encodeOne hv, isPadded_encodeOne hv, ?_⟩
  rintro run hn rfl
  exact ⟨encodeOne_length_le_of_lt (List.length_pos_of_ne_nil (isNumber_ne_nil hn)) (runValue_lt run),
    fun hp => eq_encodeOne_of_not_padded hn hp hv⟩

end Sys2Proof.Machine
end

section
/-! PROOFS. The bit-group extractor and the bit length (40_extractor.md R90 to R92). -/

namespace Sys2Proof.Machine

/-! ### The extractor -/

theorem extract7_eq (a : Nat) : extract7 a = (a % 128, a / 128) := Prod.ext (extract7_fst a) (extract7_snd a)

/-- The remainder, shifted back, leaves the seven bits of the group free (R91). -/
theorem extract7_shiftLeft_or (a : Nat) : (extract7 a).2 <<< 7 ||| (extract7 a).1 = a := by
  have hg : (extract7 a).1 < 2 ^ 7 := by rw [extract7_fst]; exact Nat.mod_lt a (by norm_num)
  rw [← Nat.shiftLeft_add_eq_or_of_lt hg, Nat.shiftLeft_eq, extract7_fst, extract7_snd]
  exact Nat.div_add_mod' a 128

/-- A byte has one bit above its group, the continuation flag (R123). -/
theorem extract7_byte_snd (b : Byte) : (extract7 b.toNat).2 = if contFlag b then 1 else 0 := by
  have hb := b.isLt
  rw [extract7_snd, contFlag_eq]
  simp only [decide_eq_true_eq]
  split <;> omega

/-- Settles O28: the halves are the quotient and the remainder by 128, of any number and of a byte. -/
theorem extractedGroupsRecompose : Obligations.ExtractedGroupsRecompose := by
  refine ⟨fun a => ⟨extract7_eq a, ?_, (extract7_shiftLeft_or a).symm, ?_, fun ha => ?_⟩,
    fun b => Prod.ext rfl (extract7_byte_snd b)⟩
  · rw [extract7_eq]; exact (Nat.div_add_mod' a 128).symm
  · rw [extract7_fst]; exact Nat.le_of_lt_succ (Nat.mod_lt a (by norm_num))
  · rw [extract7_snd]; exact Nat.div_lt_self ha (by norm_num)

/-! ### The bit length -/

theorem bitLen_eq_succ_iff {v n : Nat} : bitLen v = n + 1 ↔ 2 ^ n ≤ v ∧ v < 2 ^ (n + 1) := by
  rw [← lt_bitLen_iff, ← bitLen_le_iff]; omega

/-- Settles O29: the two bounds of a bit length, which is not 0 for a number that is not 0. -/
theorem bitLengthIsThePositionOfTheTopBit : Obligations.BitLengthIsThePositionOfTheTopBit := by
  refine ⟨bitLen_zero, fun v n hv => ?_, fun v hv => bitLen_le_iff.2 hv⟩
  cases n with
  | zero => simpa [bitLen_eq_zero] using hv.ne'
  | succ n => simpa using bitLen_eq_succ_iff

end Sys2Proof.Machine
end

section
/-! PROOFS. The closed form of `EncodeOne` (41_encoder.md R101, R102). -/

namespace Sys2Proof.Machine

/-! ### How many bytes -/

/-- `max 1 ⌈BITLEN(v)/7⌉` bytes suffice exactly for the values below 128 to their number. -/
theorem max_one_bitLen_le_iff {v k : Nat} (hk : 0 < k) : max 1 ((bitLen v + 6) / 7) ≤ k ↔ v < 128 ^ k := by
  have hpow : 128 ^ k = 2 ^ (7 * k) := (Nat.pow_mul 2 7 k).symm
  rw [hpow, ← bitLen_le_iff]
  omega

theorem encodeOne_length_pos (v : Nat) : 0 < (encodeOne v).length :=
  List.length_pos_of_ne_nil (isNumber_ne_nil (isNumber_encodeOne v))

theorem encodeOne_length_le_iff {v k : Nat} (hv : v ≤ maxValue) (hk : 0 < k) :
    (encodeOne v).length ≤ k ↔ v < 128 ^ k := by
  refine ⟨fun h => ?_, encodeOne_length_le_of_lt hk⟩
  calc v = runValue (encodeOne v) := (runValue_encodeOne hv).symm
    _ < 128 ^ (encodeOne v).length := runValue_lt _
    _ ≤ 128 ^ k := Nat.pow_le_pow_right (by norm_num) h

theorem encodeOne_length {v : Nat} (hv : v ≤ maxValue) :
    (encodeOne v).length = max 1 ((bitLen v + 6) / 7) := by
  have hpos := encodeOne_length_pos v
  apply le_antisymm
  · exact (encodeOne_length_le_iff hv (by omega)).2 ((max_one_bitLen_le_iff (by omega)).1 le_rfl)
  · exact (max_one_bitLen_le_iff hpos).2 ((encodeOne_length_le_iff hv hpos).1 le_rfl)

/-! ### Which bytes -/

/-- The groups of a run are the base-128 digits of its value, the most significant first (R72). -/
theorem runValue_digit {run : List Byte} {j : Nat} (hj : j < run.length) :
    runValue run / 128 ^ (run.length - 1 - j) % 128 = group run[j] := by
  have hcut : run = run.take j ++ run[j] :: run.drop (j + 1) := by
    rw [← List.drop_eq_getElem_cons hj, List.take_append_drop]
  have hlen : (run.drop (j + 1)).length = run.length - 1 - j := by rw [List.length_drop]; omega
  have hvalue : runValue run =
      128 ^ (run.length - 1 - j) * (runValue (run.take j) * 128 + group run[j]) + runValue (run.drop (j + 1)) := by
    conv_lhs => rw [hcut]
    rw [runValue_append, runValue, List.length_cons, hlen, Nat.pow_succ]; ring
  have hlow := Nat.div_eq_of_lt (hlen ▸ runValue_lt (run.drop (j + 1)))
  have hg := group_lt run[j]
  rw [hvalue, Nat.mul_add_div (by positivity), hlow]
  omega

/-- In an encoded number every byte but the last has its continuation flag set (R71). -/
theorem contFlag_getElem_of_isNumber {run : List Byte} (hn : isNumber run = true) {j : Nat} (hj : j < run.length) :
    contFlag run[j] = decide (j < run.length - 1) := by
  obtain ⟨c, t, rfl, hc, ht⟩ := isNumber_iff.1 hn
  rw [List.length_append, List.length_singleton] at hj ⊢
  rcases Nat.lt_or_ge j c.length with hlt | hge
  · rw [List.getElem_append_left hlt, hc _ (List.getElem_mem hlt)]
    simpa using hlt
  · obtain rfl : j = c.length := by omega
    simpa using ht

/-- A byte from its group and its flag (R70). -/
theorem ofNat_group_or_contFlag (b : Byte) :
    BitVec.ofNat 8 (group b ||| if contFlag b = true then 0x80 else 0) = b := by
  cases hc : contFlag b with
  | true => exact contByte_group hc
  | false => rw [if_neg Bool.false_ne_true, Nat.or_zero]; exact termByte_group hc

/-- Byte `j` of an encoded number: digit `j` of its value, flagged unless last (R71, R72). -/
theorem getElem?_of_isNumber {run : List Byte} (hn : isNumber run = true) {j : Nat} (hj : j < run.length) :
    run[j]? = some (BitVec.ofNat 8 (((runValue run >>> (7 * (run.length - 1 - j))) &&& 0x7F) |||
      (if j < run.length - 1 then 0x80 else 0))) := by
  have hdigit : (runValue run >>> (7 * (run.length - 1 - j))) &&& 0x7F = group run[j] := by
    have hmask := Nat.and_two_pow_sub_one_eq_mod (runValue run >>> (7 * (run.length - 1 - j))) 7
    rw [← runValue_digit hj, Nat.shiftRight_eq_div_pow, Nat.pow_mul]
    rwa [Nat.shiftRight_eq_div_pow, Nat.pow_mul] at hmask
  have hflag := contFlag_getElem_of_isNumber hn hj
  have hbyte := ofNat_group_or_contFlag run[j]
  simp only [hflag, decide_eq_true_eq] at hbyte
  rw [hdigit, hbyte, List.getElem?_eq_getElem hj]

theorem getElem?_encodeOne {v : Nat} (hv : v ≤ maxValue) {j : Nat} (hj : j < (encodeOne v).length) :
    (encodeOne v)[j]? = some (BitVec.ofNat 8 (((v >>> (7 * ((encodeOne v).length - 1 - j))) &&& 0x7F) |||
      (if j < (encodeOne v).length - 1 then 0x80 else 0))) := by
  have h := getElem?_of_isNumber (isNumber_encodeOne v) hj
  rwa [runValue_encodeOne hv] at h

/-- No leading group is 0: a number of two or more bytes is not padded (R75, R102). -/
theorem group_head_encodeOne_ne_zero {v : Nat} (hv : v ≤ maxValue) (hlen : (encodeOne v).length ≠ 1) :
    group ((encodeOne v).headD 0) ≠ 0 := fun h0 => by
  have hpos := encodeOne_length_pos v
  have hpad := isPadded_iff.2 ⟨by omega, h0⟩
  exact Bool.false_ne_true ((isPadded_encodeOne hv).symm.trans hpad)

/-- Settles O30: the loop gives the encoded number that is not padded, whose length its value bounds on both sides and
whose groups are the value's digits. -/
theorem encodeOneClosedForm : Obligations.EncodeOneClosedForm := by
  rintro v n hv rfl
  rw [← encodeOne_length hv]
  exact ⟨rfl, encodeOne_length_pos v, encodeOne_length_le v, fun j hj => getElem?_encodeOne hv hj,
    group_head_encodeOne_ne_zero hv⟩

end Sys2Proof.Machine
end

section
/-! PROOFS. Which words carry the operations of `ENC`, and where a `PUSH` is refused (30_encoding.md R80, R82;
41_encoder.md R103 to R105; 70_reset_and_hazards.md R209). -/

namespace Sys2Proof

/-- A code above a data field decodes to the operation of the two (R77, R78, R80). -/
theorem decode_code_mul_add {cfg : Config} {b : Block} {d : Nat} (o : Op) (h : d < 2 ^ dataBits cfg b) :
    decode cfg b (o.code * 2 ^ dataBits cfg b + d) = .ok (Instr.ofFields d b o) := by
  refine decode_eq_ok.2 ⟨o, ?_, ?_⟩
  · rw [← code_or_data _ h, word_code _ h]
  · rw [← code_or_data _ h, word_data _ h]

end Sys2Proof

namespace Sys2Proof.Machine

/-! ### The refusals -/

/-- The `refuse` of R104 through the bytes themselves. -/
theorem encOver_iff {s : State} {v : Nat} :
    encOver s v ↔ s.enc.phase = .opened ∧ v ≤ maxValue ∧
      fits s.cfg.encCap (s.enc.obuf.length + (encodeOne v).length) = false :=
  and_congr_right fun _ => and_congr_right fun hv => by rw [fits_false_iff, encodeOne_length hv]

/-- The `refuse` of R122 through the byte's flag. -/
theorem decOver_iff {s : State} {b : Byte} :
    decOver s b ↔ s.dec.phase = .opened ∧ s.dec.off.toNat + nextMsb s b ≤ 32 ∧ contFlag b = false ∧
      fits s.cfg.decCap (s.dec.rbuf.length + 1) = false := by
  rw [decOver, fits_false_iff, contFlag_eq, decide_eq_false_iff_not, Nat.not_le]

theorem exec_encPush_refused_or_next (v : Nat) (s : State) :
    (encOver s v ∧ exec (.encPush v) s = .refused (.overCapacity .enc)) ∨
    (¬ encOver s v ∧ ∃ t, exec (.encPush v) s = .next t) := by
  rw [encOver_iff]
  rcases execEncPush_cases v s with ⟨hp, e⟩ | ⟨-, hv, e⟩ | ⟨hp, hv, e⟩
  · exact .inr ⟨fun ⟨hp', _⟩ => hp hp', _, e⟩
  · exact .inr ⟨fun ⟨_, hv', _⟩ => Nat.not_lt.2 hv' hv, _, e⟩
  · rcases appendBytes_cases (encodeOne v) s with ⟨hf, e'⟩ | ⟨hf, e'⟩
    · exact .inr ⟨fun ⟨_, _, hf'⟩ => Bool.false_ne_true (hf'.symm.trans hf), _, e.trans e'⟩
    · exact .inl ⟨⟨hp, hv, hf⟩, e.trans e'⟩

theorem exec_decPush_refused_or_next (b : Byte) (s : State) :
    (decOver s b ∧ exec (.decPush b) s = .refused (.overCapacity .dec)) ∨
    (¬ decOver s b ∧ ∃ t, exec (.decPush b) s = .next t) := by
  rw [decOver_iff]
  rcases execDecPush_cases b s with ⟨hp, e⟩ | ⟨-, ho, e⟩ | ⟨-, -, hc, e⟩ | ⟨hp, ho, hc, e⟩
  · exact .inr ⟨fun ⟨hp', _⟩ => hp hp', _, e⟩
  · exact .inr ⟨fun ⟨_, ho', _⟩ => Nat.not_lt.2 ho' ho, _, e⟩
  · exact .inr ⟨fun ⟨_, _, hc', _⟩ => Bool.false_ne_true (hc'.symm.trans hc), _, e⟩
  · rcases completeNumber_cases (accumulate s.dec.acc (group b)) (latchGroup b s) with ⟨hf, e'⟩ | ⟨hf, e'⟩
    · exact .inr ⟨fun ⟨_, _, _, hf'⟩ => Bool.false_ne_true (hf'.symm.trans hf), _, e.trans e'⟩
    · exact .inl ⟨⟨hp, ho, hc, hf⟩, e.trans e'⟩

theorem exec_encPush_of_encOver {s : State} {v : Nat} (h : encOver s v) :
    exec (.encPush v) s = .refused (.overCapacity .enc) :=
  (exec_encPush_refused_or_next v s).elim (·.2) fun hnot => absurd h hnot.1

theorem exec_decPush_of_decOver {s : State} {b : Byte} (h : decOver s b) :
    exec (.decPush b) s = .refused (.overCapacity .dec) :=
  (exec_decPush_refused_or_next b s).elim (·.2) fun hnot => absurd h hnot.1

theorem exec_next_of_ne_push {i : Instr} (h : i.op ≠ .push) (s : State) : ∃ t, exec i s = .next t := by
  cases i with
  | encPush | decPush => exact absurd rfl h
  | encNop | encClr | decNop | decClr => exact ⟨_, rfl⟩
  | encEnd => rcases execEncEnd_cases s with ⟨-, e⟩ | ⟨-, e⟩ <;> exact ⟨_, e⟩
  | decEnd => rcases execDecEnd_cases s with ⟨-, e⟩ | ⟨-, -, e⟩ | ⟨-, -, -, e⟩ | ⟨-, -, -, e⟩ <;> exact ⟨_, e⟩

/-- Settles O26: only a `PUSH` can stop, and it does so exactly over its capacity. -/
theorem refusedExactlyOverCapacity : Obligations.RefusedExactlyOverCapacity := by
  refine ⟨fun i s => ?_, fun _ _ => exec_encPush_of_encOver, fun _ _ => exec_decPush_of_decOver,
    fun i s henc hdec => exec_next_of_unbounded (fun b => by cases b <;> assumption) i⟩
  cases i with
  | encPush v =>
    exact (exec_encPush_refused_or_next v s).symm.imp (·.2) fun ⟨hover, e⟩ => .inl ⟨v, rfl, hover, e⟩
  | decPush b =>
    exact (exec_decPush_refused_or_next b s).symm.imp (·.2) fun ⟨hover, e⟩ => .inr ⟨b, rfl, hover, e⟩
  | encNop | encEnd | encClr | decNop | decEnd | decClr => exact .inl (exec_next_of_ne_push (by decide) s)

/-! ### The operations of `ENC` -/

/-- Settles O11: the cases of the operation, its bytes by the closed form of `EncodeOne`. -/
theorem encPushChecksThenAppends : Obligations.EncPushChecksThenAppends := by
  refine ⟨fun cfg v hv => decode_code_mul_add (b := .enc) .push hv, fun s v => ⟨fun closed => ?_,
    fun opened above => ?_, fun opened hv fit => ?_, fun opened hv cap hcap above => ?_⟩⟩
  · exact exec_of_effect (.encDiscarded v closed)
  · exact exec_of_effect (.encRaised v opened above)
  · rw [← encodeOne_length hv] at fit ⊢
    exact ⟨encodeOne v, rfl, fun j hj => getElem?_encodeOne hv hj,
      exec_of_effect (.encAppended v opened hv (fits_iff.2 fit))⟩
  · exact exec_encPush_of_encOver ⟨opened, hv, cap, hcap, above⟩

/-- Settles O10: code 00 is `NOP` over any data, and `NOP` answers its state. -/
theorem nopChangesNothing : Obligations.NopChangesNothing :=
  ⟨fun _ _ h => decode_code_mul_add (b := .enc) .nop h, fun _ _ h => decode_code_mul_add (b := .dec) .nop h,
    fun _ => ⟨rfl, rfl⟩⟩

/-- Settles O12: the delivered state is in phase `DONE`, where the outputs and the read port show the buffer. -/
theorem encEndDeliversTheBytes : Obligations.EncEndDeliversTheBytes := by
  refine ⟨fun cfg data h => decode_code_mul_add (b := .enc) .finish h, fun s => ⟨fun closed => ?_, fun opened => ?_⟩⟩
  · exact exec_of_effect (.encEndDiscarded closed)
  · have hend : exec .encEnd s = .next (deliver .enc s) := exec_of_effect (.encDelivered opened)
    refine ⟨hend, fun t ht => ?_⟩
    obtain rfl : deliver .enc s = t := by rw [hend] at ht; injection ht
    exact ⟨rfl, rfl, rfl, fun k hk => encRead_of_done (s := deliver .enc s) rfl hk⟩

end Sys2Proof.Machine
end

section
/-! PROOFS. The operations of `DEC` case by case (42_decoder.md R122 to R128). -/

namespace Sys2Proof.Machine

/-! ### The registers a `PUSH` writes, as numbers -/

theorem latchedMsb_eq (s : State) (b : Byte) :
    latchedMsb s.cfg.msbLatch s.dec (group b) = BitVec.ofNat 3 (nextMsb s b) := by
  rw [← latchedMsb_toNat, BitVec.ofNat_toNat, BitVec.setWidth_eq]

theorem accumulate_eq (a : Word) (b : Byte) :
    accumulate a (group b) = BitVec.ofNat 32 (a.toNat * 128 + b.toNat % 128) := by
  apply BitVec.eq_of_toNat_eq
  rw [accumulate_toNat a (group_lt b), group_eq, BitVec.toNat_ofNat]

theorem off_add_seven_eq (off : BitVec 6) : off + 7 = BitVec.ofNat 6 (off.toNat + 7) := by
  rw [BitVec.ofNat_add, BitVec.ofNat_toNat, BitVec.setWidth_eq]; rfl

/-- Settles O13: the cases of the operation, its registers read as numbers; a first byte cannot fail the check because
no group is longer than seven bits. -/
theorem decPushTakesTheFiveSteps : Obligations.DecPushTakesTheFiveSteps := by
  refine ⟨fun cfg b => ?_, fun s b value msb hvalue hmsb => ?_⟩
  · rw [← Instr.ofFields_data (.decPush b)]
    exact decode_code_mul_add (b := .dec) .push b.isLt
  · subst hvalue
    obtain rfl : msb = nextMsb s b := hmsb
    rw [← latchedMsb_eq, ← accumulate_eq, ← off_add_seven_eq]
    have flag (h : 128 ≤ b.toNat) : contFlag b = true := (contFlag_eq b).trans (decide_eq_true h)
    have noFlag (h : b.toNat < 128) : contFlag b = false :=
      (contFlag_eq b).trans (decide_eq_false (Nat.not_le.2 h))
    refine ⟨fun closed => ?_, fun boundary => ?_, fun opened above => ?_, fun opened pass cont => ?_,
      fun opened pass terminal fit => ?_, fun opened pass terminal cap hcap above => ?_⟩
    · exact exec_of_effect (.decDiscarded b closed)
    · have := nextMsb_le s b
      omega
    · exact exec_of_effect (.decRaised b opened above)
    · exact exec_of_effect (.decContinued b opened pass (flag cont))
    · exact exec_of_effect (.decCompleted b opened pass (noFlag terminal) (fits_iff.2 fit))
    · exact exec_decPush_of_decOver ⟨opened, pass, terminal, cap, hcap, above⟩

/-- Settles O14: the cases of the operation; the delivered state is in phase `DONE`, where the outputs and the read port
show the buffer. -/
theorem decEndChecksThenDelivers : Obligations.DecEndChecksThenDelivers := by
  refine ⟨fun cfg data h => decode_code_mul_add (b := .dec) .finish h, fun s => ⟨fun closed => ?_,
    fun opened unseen => ?_, fun opened seen inside => ?_, fun opened seen boundary => ?_⟩⟩
  · exact exec_of_effect (.decEndDiscarded closed)
  · exact exec_of_effect (.decEmpty opened unseen)
  · exact exec_of_effect (.decIncomplete opened seen inside)
  · have hend : exec .decEnd s = .next (deliver .dec s) := exec_of_effect (.decDelivered opened seen boundary)
    refine ⟨hend, fun t ht => ?_⟩
    obtain rfl : deliver .dec s = t := by rw [hend] at ht; injection ht
    exact ⟨rfl, rfl, fun k hk => decRead_of_done (s := deliver .dec s) rfl hk⟩

end Sys2Proof.Machine
end

section
/-! PROOFS. The overflow check along the bytes of one number, for both values of `MSB_LATCH` (42_decoder.md R124, R125),
and the streams on which the two values agree. -/

namespace Sys2Proof.Machine

/-! ### The bit length latched by the bytes of a number -/

/-- The first group of a run that is not 0, and 0 where there is none. -/
def leadingGroup : List Byte → Nat
  | [] => 0
  | b :: bs => if group b = 0 then leadingGroup bs else group b

/-- What `dec_msb` holds after the bytes of a run (R124): the bit length of the first group, or of the first that is
not 0. -/
def latchedBits : MsbLatch → List Byte → Nat
  | .firstGroup, run => firstGroupBits run
  | .accZero, run => bitLen (leadingGroup run)

theorem leadingGroup_append_singleton (c : List Byte) (b : Byte) :
    leadingGroup (c ++ [b]) = if leadingGroup c = 0 then group b else leadingGroup c := by
  induction c with
  | nil => simp [leadingGroup, eq_comm]
  | cons y c ih =>
    by_cases hy : group y = 0
    · simp [leadingGroup, hy, ih]
    · simp [leadingGroup, hy]

theorem leadingGroup_lt (run : List Byte) : leadingGroup run < 128 := by
  induction run with
  | nil => exact Nat.succ_pos 127
  | cons b run ih =>
    rw [leadingGroup]
    split
    · exact ih
    · exact group_lt b

theorem leadingGroup_of_head_ne_zero {run : List Byte} (h : group (run.headD 0) ≠ 0) :
    leadingGroup run = group (run.headD 0) := by
  cases run with
  | nil => exact absurd rfl h
  | cons b run => exact if_neg h

/-- The accumulator is 0 exactly as long as all groups are (R36). -/
theorem runValue_eq_zero_iff (c : List Byte) : runValue c = 0 ↔ leadingGroup c = 0 := by
  induction c with
  | nil => exact Iff.rfl
  | cons b c ih =>
    by_cases hb : group b = 0
    · simp [runValue, leadingGroup, hb, ih]
    · simp [runValue, leadingGroup, hb]

theorem firstGroupBits_append {c : List Byte} (h : c ≠ []) (x : List Byte) :
    firstGroupBits (c ++ x) = firstGroupBits c :=
  congrArg (fun b => bitLen (group b)) (headD_append_of_ne_nil h x)

theorem latchedBits_le (latch : MsbLatch) (run : List Byte) : latchedBits latch run ≤ 7 := by
  cases latch with
  | firstGroup => exact bitLen_group_le _
  | accZero => exact bitLen_le_iff.2 (leadingGroup_lt run)

/-- After a first group that is not 0 both values of `MSB_LATCH` have latched the same byte. -/
theorem latchedBits_of_head_ne_zero {run : List Byte} (h : group (run.headD 0) ≠ 0) :
    latchedBits .accZero run = latchedBits .firstGroup run :=
  congrArg bitLen (leadingGroup_of_head_ne_zero h)

/-- Step 2 after the groups of `c` (R124). -/
theorem msbAfter_latchedBits (latch : MsbLatch) (c : List Byte) (b : Byte) :
    msbAfter latch (runValue c) (7 * c.length) (latchedBits latch c) (group b) = latchedBits latch (c ++ [b]) := by
  cases latch with
  | firstGroup =>
    cases c with
    | nil => rfl
    | cons y c => exact (firstGroupBits_append (List.cons_ne_nil y c) [b]).symm
  | accZero =>
    simp only [msbAfter, latchedBits, runValue_eq_zero_iff, leadingGroup_append_singleton]
    split <;> rfl

/-- Once latched, the bit length stays. -/
theorem latchedBits_le_append_singleton (latch : MsbLatch) (c : List Byte) (b : Byte) :
    latchedBits latch c ≤ latchedBits latch (c ++ [b]) := by
  cases latch with
  | firstGroup =>
    cases c with
    | nil => exact Nat.zero_le _
    | cons y c => exact (firstGroupBits_append (List.cons_ne_nil y c) [b]).ge
  | accZero =>
    simp only [latchedBits, leadingGroup_append_singleton]
    split_ifs with hzero
    · rw [hzero]; exact Nat.zero_le _
    · exact le_rfl

/-! ### The bytes of one number -/

/-- One byte more, after continuation bytes `c` that passed the check. -/
theorem decodeLoop_next (latch : MsbLatch) (c : List Byte) (b : Byte) (bs : List Byte) (res : List Nat) :
    decodeLoop latch (b :: bs) (runValue c) (7 * c.length) (latchedBits latch c) res =
      if 32 < 7 * c.length + latchedBits latch (c ++ [b]) then .err .overflow
      else if contFlag b = true then
        decodeLoop latch bs (runValue (c ++ [b])) (7 * (c ++ [b]).length) (latchedBits latch (c ++ [b])) res
      else decodeLoop latch bs 0 0 (latchedBits latch (c ++ [b])) (res ++ [runValue (c ++ [b])]) := by
  rw [decodeLoop_cons, msbAfter_latchedBits, runValue_append_singleton, List.length_append, List.length_singleton,
    Nat.mul_add]

/-- Continuation bytes at a boundary go into the registers; where one of them fails the check, the next byte `b` fails
it too, since its offset and its latched bit length are no smaller (R125). -/
theorem decodeLoop_run (latch : MsbLatch) {c : List Byte} (hc : AllCont c) (b : Byte) (bs : List Byte) (m : Nat)
    (res : List Nat) :
    decodeLoop latch (c ++ b :: bs) 0 0 m res =
      decodeLoop latch (b :: bs) (runValue c) (7 * c.length) (latchedBits latch c) res := by
  induction c using List.reverseRecOn generalizing b bs with
  | nil => exact decodeLoop_boundary latch _ _ _ _
  | append_singleton c y ih =>
    obtain ⟨hc, hy⟩ := List.forall_mem_append.1 hc
    rw [List.append_assoc, List.singleton_append, ih hc y (b :: bs), decodeLoop_next latch c]
    by_cases h : 32 < 7 * c.length + latchedBits latch (c ++ [y])
    · have hmono := latchedBits_le_append_singleton latch (c ++ [y]) b
      have hlen : c.length ≤ (c ++ [y]).length := by simp
      rw [if_pos h, decodeLoop_next, if_pos (by omega)]
    · rw [if_neg h, if_pos (hy y (by simp))]

/-- A stream that is one run, in closed form: the check at its last byte, then that byte's flag. -/
theorem decodeLoop_lastRun (latch : MsbLatch) {c : List Byte} (hc : AllCont c) (b : Byte) (m : Nat) (res : List Nat) :
    decodeLoop latch (c ++ [b]) 0 0 m res =
      if 32 < 7 * c.length + latchedBits latch (c ++ [b]) then .err .overflow
      else if contFlag b = true then .err .incomplete
      else .ok (res ++ [runValue (c ++ [b])]) := by
  rw [decodeLoop_run latch hc, decodeLoop_next]
  simp [decodeLoop]

theorem decodeLoop_lastRun_eq_overflow_iff (latch : MsbLatch) {c : List Byte} (hc : AllCont c) (b : Byte) (m : Nat)
    (res : List Nat) :
    decodeLoop latch (c ++ [b]) 0 0 m res = .err .overflow ↔ 32 < 7 * c.length + latchedBits latch (c ++ [b]) := by
  rw [decodeLoop_lastRun latch hc]
  split_ifs with h <;> simp [h]

/-- An encoded number at the head of a stream, in closed form. -/
theorem decodeLoop_number_eq (latch : MsbLatch) {c : List Byte} {b : Byte} (hc : AllCont c) (hb : contFlag b = false)
    (bs : List Byte) (m : Nat) (res : List Nat) :
    decodeLoop latch (c ++ b :: bs) 0 0 m res =
      if 32 < 7 * c.length + latchedBits latch (c ++ [b]) then .err .overflow
      else decodeLoop latch bs 0 0 0 (res ++ [runValue (c ++ [b])]) := by
  rw [decodeLoop_run latch hc, decodeLoop_next, hb, if_neg Bool.false_ne_true, decodeLoop_boundary latch bs _ 0]

/-! ### A stream by the last byte of each of its runs -/

theorem runsOf_open {c : List Byte} {b : Byte} (hc : AllCont c) (hb : contFlag b = true) :
    runsOf (c ++ [b]) = [c ++ [b]] :=
  runsOf_allCont (List.forall_mem_append.2 ⟨hc, by simpa using hb⟩) (by simp)

theorem runsOf_terminated {c : List Byte} {b : Byte} (hc : AllCont c) (hb : contFlag b = false) (rest : List Byte) :
    runsOf (c ++ b :: rest) = (c ++ [b]) :: runsOf rest := by
  rw [List.append_cons, runsOf_number (isNumber_iff.2 ⟨c, b, rfl, hc, hb⟩)]

/-- Induction over a stream, a number at a time, where each run is continuation bytes and a last byte. -/
theorem run_induction {P : List Byte → Prop} (empty : P [])
    (open_ : ∀ c b, AllCont c → contFlag b = true → P (c ++ [b]))
    (terminated : ∀ c b rest, AllCont c → contFlag b = false → P rest → P (c ++ b :: rest)) : ∀ bs, P bs := by
  intro bs
  induction bs using stream_induction with
  | empty => exact empty
  | open_ c hc hne =>
    rw [← List.dropLast_append_getLast hne]
    exact open_ _ _ (fun y hy => hc y (List.dropLast_subset c hy)) (hc _ (List.getLast_mem hne))
  | number n rest hn ih =>
    obtain ⟨c, b, rfl, hc, hb⟩ := isNumber_iff.1 hn
    rw [← List.append_cons]
    exact terminated c b rest hc hb ih

/-! ### Six bytes -/

/-- At a sixth byte `dec_off` alone, 35, exceeds the limit. -/
theorem decodeLoop_of_long_run (latch : MsbLatch) {bs : List Byte} (h : ∃ run ∈ runsOf bs, 6 ≤ run.length) (m : Nat)
    (res : List Nat) : decodeLoop latch bs 0 0 m res = .err .overflow := by
  induction bs using run_induction generalizing m res with
  | empty => simp [runsOf] at h
  | open_ c b hc hb =>
    have hlen : 5 ≤ c.length := by simpa [runsOf_open hc hb] using h
    exact (decodeLoop_lastRun_eq_overflow_iff latch hc b m res).2 (by omega)
  | terminated c b rest hc hb ih =>
    rw [decodeLoop_number_eq latch hc hb]
    split_ifs with hover
    · rfl
    · have hshort : ¬ 6 ≤ (c ++ [b]).length := by simp; omega
      simp only [runsOf_terminated hc hb, List.mem_cons, exists_eq_or_imp] at h
      exact ih (h.resolve_left hshort) 0 _

/-- Settles O44: an earlier number overflows, or the loop comes to the long one at a boundary. -/
theorem sixByteNumbersAreRejected : Obligations.SixByteNumbersAreRejected := by
  intro latch bs h
  have hne : bs ≠ [] := by rintro rfl; simp [runsOf] at h
  rw [decodeSeq_eq latch hne]
  exact decodeLoop_of_long_run latch h 0 []

/-! ### Where the two values of `MSB_LATCH` agree, and where they part -/

/-- In four bytes no check fails; in five or more after a first group that is not 0 both values check the same sum. -/
theorem check_accZero_iff_firstGroup {c : List Byte} {b : Byte}
    (h : 5 ≤ (c ++ [b]).length → group ((c ++ [b]).headD 0) ≠ 0) :
    32 < 7 * c.length + latchedBits .accZero (c ++ [b]) ↔
      32 < 7 * c.length + latchedBits .firstGroup (c ++ [b]) := by
  by_cases hlen : 5 ≤ (c ++ [b]).length
  · rw [latchedBits_of_head_ne_zero (h hlen)]
  · have hacc := latchedBits_le .accZero (c ++ [b])
    have hfirst := latchedBits_le .firstGroup (c ++ [b])
    rw [List.length_append, List.length_singleton] at hlen
    omega

theorem decodeLoop_accZero_eq_firstGroup {bs : List Byte}
    (h : ∀ run ∈ runsOf bs, 5 ≤ run.length → group (run.headD 0) ≠ 0) (res : List Nat) :
    decodeLoop .accZero bs 0 0 0 res = decodeLoop .firstGroup bs 0 0 0 res := by
  induction bs using run_induction generalizing res with
  | empty => rfl
  | open_ c b hc hb =>
    have hrun := h (c ++ [b]) (by simp [runsOf_open hc hb])
    simp only [decodeLoop_lastRun _ hc, check_accZero_iff_firstGroup hrun]
  | terminated c b rest hc hb ih =>
    rw [runsOf_terminated hc hb, List.forall_mem_cons] at h
    obtain ⟨hrun, hrest⟩ := h
    simp only [decodeLoop_number_eq _ hc hb, check_accZero_iff_firstGroup hrun, ih hrest]

theorem runsOf_flatMap_encodeOne (xs : List Nat) : runsOf (xs.flatMap encodeOne) = xs.map encodeOne := by
  induction xs with
  | nil => rfl
  | cons x xs ih => rw [List.flatMap_cons, runsOf_number (isNumber_encodeOne x), ih, List.map_cons]

theorem decodeSeq_accZero_eq_firstGroup {bs : List Byte}
    (h : ∀ run ∈ runsOf bs, 5 ≤ run.length → group (run.headD 0) ≠ 0) :
    decodeSeq .accZero bs = decodeSeq .firstGroup bs := by
  by_cases hne : bs = []
  · rw [hne]; rfl
  · rw [decodeSeq_eq _ hne, decodeSeq_eq _ hne, decodeLoop_accZero_eq_firstGroup h]

/-- Settles O45: run by run the same check; the encoder pads no number. -/
theorem latchReadingsAgree : Obligations.LatchReadingsAgree := by
  refine ⟨fun bs h => decodeSeq_accZero_eq_firstGroup h, fun xs hxs => decodeSeq_accZero_eq_firstGroup ?_⟩
  intro run hrun hlen
  rw [runsOf_flatMap_encodeOne] at hrun
  obtain ⟨x, hx, rfl⟩ := List.mem_map.1 hrun
  exact group_head_encodeOne_ne_zero (hxs x hx) (by omega)

/-- The first group that is not 0 among those before the last byte, or else the last byte's. -/
theorem leadingGroup_append_singleton_eq_find? (c : List Byte) (b : Byte) :
    leadingGroup (c ++ [b]) = ((c.map group).find? fun g => decide (g ≠ 0)).getD (group b) := by
  induction c with
  | nil => simp [leadingGroup, eq_comm]
  | cons y c ih =>
    by_cases hy : group y = 0
    · simpa [leadingGroup, hy] using ih
    · simp [leadingGroup, hy]

/-- Settles O46: at the fifth byte the offset is 28; `FIRST_GROUP` adds the bit length 0 of the first group,
`ACC_ZERO` that of the first group that is not 0. -/
theorem latchReadingsPartAtTheFifthByte : Obligations.LatchReadingsPartAtTheFifthByte := by
  intro b1 b2 b3 b4 b5 h1 h2 h3 h4 hzero
  have hc : AllCont [b1, b2, b3, b4] := by simp [AllCont, h1, h2, h3, h4]
  have overflow (latch : MsbLatch) : decodeSeq latch [b1, b2, b3, b4, b5] = .err .overflow ↔
      32 < 28 + latchedBits latch ([b1, b2, b3, b4] ++ [b5]) :=
    decodeLoop_lastRun_eq_overflow_iff latch hc b5 0 []
  have first : latchedBits .firstGroup ([b1, b2, b3, b4] ++ [b5]) = 0 := congrArg bitLen hzero
  have leading : leadingGroup ([b1, b2, b3, b4] ++ [b5]) =
      ([group b2, group b3, group b4].find? fun g => decide (g ≠ 0)).getD (group b5) := by
    rw [leadingGroup_append_singleton_eq_find?, List.map_cons, List.find?_cons_of_neg (by simp [hzero])]
    rfl
  constructor
  · rw [Ne, overflow, first]; decide
  · rw [overflow, ← leading, latchedBits]; omega

end Sys2Proof.Machine
end

section
/-! PROOFS. The longest and the largest number that `DEC` accepts under `FIRST_GROUP` (42_decoder.md R132). -/

namespace Sys2Proof.Machine

/-! ### The byte at which the check fails -/

/-- With room for one more word a `PUSH` into an open call goes on, and raises exactly where the check fails (R122). -/
theorem exec_decPush_of_room {s : State} (opened : s.dec.phase = .opened)
    (room : fits s.cfg.decCap (s.dec.rbuf.length + 1) = true) (b : Byte) :
    ∃ t, exec (.decPush b) s = .next t ∧ (t.dec.phase = .err ↔ 32 < s.dec.off.toNat + nextMsb s b) := by
  rcases Nat.lt_or_ge 32 (s.dec.off.toNat + nextMsb s b) with above | pass
  · exact ⟨_, exec_of_effect (.decRaised b opened above), iff_of_true rfl above⟩
  · have noErr : s.dec.phase ≠ .err := by simp [opened]
    cases hb : contFlag b with
    | true => exact ⟨_, exec_of_effect (.decContinued b opened pass hb), iff_of_false noErr (Nat.not_lt.2 pass)⟩
    | false => exact ⟨_, exec_of_effect (.decCompleted b opened pass hb room), iff_of_false noErr (Nat.not_lt.2 pass)⟩

/-- The open `DEC` of `FIRST_GROUP` has read the bytes `c` of a number, all of them continuing: what the check reads. -/
structure State.ReadGroups (s : State) (c : List Byte) : Prop where
  latch : s.cfg.msbLatch = .firstGroup
  opened : s.dec.phase = .opened
  off : s.dec.off.toNat = 7 * c.length
  msb : c ≠ [] → s.dec.msb.toNat = firstGroupBits c

section
variable {s : State} {c : List Byte} (h : s.ReadGroups c) (b : Byte)
include h

theorem State.ReadGroups.nextMsb_eq : nextMsb s b = firstGroupBits (c ++ [b]) := by
  by_cases hc : c = []
  · have hoff := h.off
    rw [nextMsb, h.latch, msbAfter, if_pos (by simpa [hc] using hoff), hc, ← group_eq]
    rfl
  · have hoff : s.dec.off ≠ 0 := fun h0 => hc (by simpa [h0] using h.off)
    rw [nextMsb_firstGroup h.latch hoff, h.msb hc, firstGroupBits_append hc]

variable {b}

/-- A continuation byte that passes the check is read (R127). -/
theorem State.ReadGroups.continued (pass : s.dec.off.toNat + nextMsb s b ≤ 32) :
    (continueNumber (accumulate s.dec.acc (group b)) (latchGroup b s)).ReadGroups (c ++ [b]) where
  latch := h.latch
  opened := h.opened
  off := by
    have hoff := h.off
    simp [BitVec.toNat_add]
    omega
  msb := fun _ => by rw [← h.nextMsb_eq b, ← latchedMsb_toNat]; rfl

end

/-- Inside a number, whose further bytes are `first`, all continuing, and then any byte `b`: `DEC` is in error after `b`
exactly where the check fails at `b`, and then at every later byte too (R125). -/
theorem phase_of_pushes {first : List Byte} (hfirst : AllCont first) (b : Byte) {s : State} {c : List Byte}
    (h : s.ReadGroups c) (room : fits s.cfg.decCap (s.dec.rbuf.length + 1) = true) :
    ∃ t, runOps ((first ++ [b]).map .decPush) s = .next t ∧
      (t.dec.phase = .err ↔ 32 < 7 * (c ++ first).length + firstGroupBits (c ++ first ++ [b])) := by
  induction first generalizing s c with
  | nil =>
    obtain ⟨t, ht, hphase⟩ := exec_decPush_of_room h.opened room b
    refine ⟨t, by rw [List.nil_append, List.map_singleton, runOps_cons, ht]; rfl, ?_⟩
    rw [hphase, h.off, h.nextMsb_eq b, List.append_nil]
  | cons y first ih =>
    obtain ⟨hy, hfirst⟩ := List.forall_mem_cons.1 hfirst
    have hassoc : c ++ y :: first = c ++ [y] ++ first := List.append_cons c y first
    rw [List.cons_append, List.map_cons, runOps_cons]
    rcases Nat.lt_or_ge 32 (s.dec.off.toNat + nextMsb s y) with above | pass
    · rw [exec_of_effect (.decRaised y h.opened above), andThen_next, runOps_decPush_of_closed (by simp)]
      refine ⟨_, rfl, iff_of_true rfl ?_⟩
      rw [h.off, h.nextMsb_eq y] at above
      rw [hassoc, List.append_assoc _ first, firstGroupBits_append (by simp)]
      simp only [List.length_append]
      omega
    · rw [exec_of_effect (.decContinued y h.opened pass hy), andThen_next, hassoc]
      exact ih hfirst (h.continued pass) room

/-! ### The largest value -/

/-- A run's value has at most its first group's bits and seven for each further byte. -/
theorem runValue_lt_two_pow (run : List Byte) : runValue run < 2 ^ (firstGroupBits run + 7 * (run.length - 1)) := by
  cases run with
  | nil => exact Nat.one_pos
  | cons b bs =>
    have hgroup : group b < 2 ^ firstGroupBits (b :: bs) := bitLen_le_iff.1 le_rfl
    have hrest := runValue_lt bs
    calc group b * 128 ^ bs.length + runValue bs
        < (group b + 1) * 128 ^ bs.length := by rw [Nat.succ_mul]; omega
      _ ≤ 2 ^ firstGroupBits (b :: bs) * 128 ^ bs.length := Nat.mul_le_mul_right _ hgroup
      _ = 2 ^ (firstGroupBits (b :: bs) + 7 * ((b :: bs).length - 1)) := by
        rw [Nat.pow_add, Nat.pow_mul, List.length_cons, Nat.add_sub_cancel]

/-- An accepted number passed the check at its last byte, and its value is the run's. -/
theorem accepted_number {run : List Byte} {v : Nat} (hn : isNumber run = true)
    (h : decodeSeq .firstGroup run = .ok [v]) : 7 * (run.length - 1) + firstGroupBits run ≤ 32 ∧ v = runValue run := by
  obtain ⟨c, b, rfl, hc, hb⟩ := isNumber_iff.1 hn
  rw [decodeSeq_eq _ (by simp), decodeLoop_lastRun _ hc, hb] at h
  split_ifs at h with hover
  simp only [List.nil_append, CallResult.ok.injEq, List.cons.injEq, and_true] at h
  rw [latchedBits] at hover
  exact ⟨by simp; omega, h.symm⟩

/-- The longest number for a first group of `g` bits (the table of R132): as many bytes as are accepted, every bit of
every group set. -/
def longestNumber (g : Nat) : List Byte :=
  contByte (2 ^ g - 1) :: (List.replicate (maxRunBytes g - 2) 0xFF ++ [0x7F])

/-- The table of R132, row by row. -/
theorem longestNumber_table : ∀ g ≤ 7, isNumber (longestNumber g) = true ∧ firstGroupBits (longestNumber g) = g ∧
    (longestNumber g).length = maxRunBytes g ∧
    decodeSeq .firstGroup (longestNumber g) = .ok [2 ^ (g + 7 * (maxRunBytes g - 1)) - 1] := by
  decide

/-- Settles O43: the check at byte `k` compares `7 (k - 1)` and the first group's bit length with 32; that bounds the
length and so the value of an accepted number, and the table has one that reaches the bound in each row. -/
theorem longestAcceptedNumber : Obligations.LongestAcceptedNumber := by
  refine ⟨fun s first b hlatch opened hoff hfirst room => ?_, fun run v hn h => ?_,
    fun g hg => ⟨longestNumber g, longestNumber_table g hg⟩⟩
  · have start : s.ReadGroups [] := ⟨hlatch, opened, by rw [hoff]; rfl, fun hne => absurd rfl hne⟩
    obtain ⟨t, ht, hphase⟩ := phase_of_pushes hfirst b start (fits_iff.2 room)
    have hbits : firstGroupBits (first ++ [b]) ≤ 7 := bitLen_group_le _
    refine ⟨t, ht, hphase.trans ?_⟩
    rw [List.nil_append, List.length_append, List.length_singleton]
    omega
  · obtain ⟨pass, rfl⟩ := accepted_number hn h
    have hlen : run.length ≤ maxRunBytes (firstGroupBits run) := by rw [maxRunBytes]; omega
    refine ⟨hlen, (runValue_lt_two_pow run).trans_le (Nat.pow_le_pow_right (by norm_num) ?_)⟩
    omega

end Sys2Proof.Machine
end

section
/-! PROOFS. The function `decode` in closed form, for both values of `MSB_LATCH`, and the streams it accepts
(43_calls.md R154, R159; 42_decoder.md R132). -/

namespace Sys2Proof.Machine

/-! ### The check of a whole run -/

/-- Some byte of the run fails the overflow check; the last one then fails it too (R125). -/
def RunOverflows (latch : MsbLatch) (run : List Byte) : Prop := 32 < 7 * (run.length - 1) + latchedBits latch run

theorem runOverflows_append_singleton {latch : MsbLatch} {c : List Byte} {b : Byte} :
    RunOverflows latch (c ++ [b]) ↔ 32 < 7 * c.length + latchedBits latch (c ++ [b]) := by
  rw [RunOverflows, List.length_append, List.length_singleton, Nat.add_sub_cancel]

/-- `FIRST_GROUP` checks the length of a run against that of its first group (R132). -/
theorem runOverflows_firstGroup_iff {run : List Byte} (hne : run ≠ []) :
    RunOverflows .firstGroup run ↔ maxRunBytes (firstGroupBits run) < run.length := by
  have hlen := List.length_pos_of_ne_nil hne
  have hbits : firstGroupBits run ≤ 7 := latchedBits_le .firstGroup run
  rw [RunOverflows, latchedBits, maxRunBytes]
  omega

/-- A run's value has at most the latched bits and seven for each byte but one. -/
theorem runValue_lt_of_latchedBits (latch : MsbLatch) (run : List Byte) :
    runValue run < 2 ^ (latchedBits latch run + 7 * (run.length - 1)) := by
  cases latch with
  | firstGroup => exact runValue_lt_two_pow run
  | accZero =>
    induction run with
    | nil => exact Nat.one_pos
    | cons b bs ih =>
      by_cases hb : group b = 0
      · have hvalue : runValue (b :: bs) = runValue bs := by simp [runValue, hb]
        have hbits : latchedBits .accZero (b :: bs) = latchedBits .accZero bs := by
          simp [latchedBits, leadingGroup, hb]
        rw [hvalue, hbits]
        exact ih.trans_le (Nat.pow_le_pow_right (by norm_num) (by rw [List.length_cons]; omega))
      · rw [latchedBits_of_head_ne_zero (run := b :: bs) hb]
        exact runValue_lt_two_pow (b :: bs)

/-- No bit of an accepted number is lost (R41). -/
theorem runValue_le_maxValue {latch : MsbLatch} {run : List Byte} (h : ¬ RunOverflows latch run) :
    runValue run ≤ maxValue := by
  rw [RunOverflows, Nat.not_lt, Nat.add_comm] at h
  exact Nat.le_of_lt_succ ((runValue_lt_of_latchedBits latch run).trans_le (Nat.pow_le_pow_right (by norm_num) h))

/-! ### How a stream ends -/

theorem endsOpen_append_singleton (c : List Byte) (b : Byte) : endsOpen (c ++ [b]) = contFlag b := by
  simp [endsOpen]

theorem endsOpen_terminated {b : Byte} (hb : contFlag b = false) (c rest : List Byte) :
    endsOpen (c ++ b :: rest) = endsOpen rest := by
  rcases List.eq_nil_or_concat rest with rfl | ⟨l, x, rfl⟩
  · rw [endsOpen_append_singleton, hb]; rfl
  · rw [List.concat_eq_append, ← List.cons_append, ← List.append_assoc, endsOpen_append_singleton,
      endsOpen_append_singleton]

/-- A stream that does not end inside a number can be cut there (R74). -/
theorem runsOf_append {x : List Byte} (hx : endsOpen x = false) (y : List Byte) :
    runsOf (x ++ y) = runsOf x ++ runsOf y := by
  induction x using run_induction with
  | empty => rfl
  | open_ c b hc hb => rw [endsOpen_append_singleton, hb] at hx; cases hx
  | terminated c b rest hc hb ih =>
    rw [endsOpen_terminated hb] at hx
    rw [List.append_assoc, List.cons_append, runsOf_terminated hc hb, runsOf_terminated hc hb, ih hx,
      List.cons_append]

theorem flatten_runsOf (bs : List Byte) : (runsOf bs).flatten = bs := by
  induction bs using run_induction with
  | empty => rfl
  | open_ c b hc hb => rw [runsOf_open hc hb, List.flatten_singleton]
  | terminated c b rest hc hb ih =>
    rw [runsOf_terminated hc hb, List.flatten_cons, ih, List.append_assoc, List.singleton_append]

theorem runsOf_ne_nil {bs : List Byte} (hne : bs ≠ []) : runsOf bs ≠ [] := fun h =>
  hne (by rw [← flatten_runsOf bs, h, List.flatten_nil])

theorem ne_nil_of_mem_runsOf {bs run : List Byte} (h : run ∈ runsOf bs) : run ≠ [] := by
  induction bs using run_induction with
  | empty => cases h
  | open_ c b hc hb =>
    rw [runsOf_open hc hb, List.mem_singleton] at h
    rw [h]; simp
  | terminated c b rest hc hb ih =>
    rw [runsOf_terminated hc hb, List.mem_cons] at h
    rcases h with rfl | h
    · simp
    · exact ih h

/-- Every run of a stream that does not end inside a number is an encoded number (R71, R74). -/
theorem isNumber_of_mem_runsOf {bs run : List Byte} (hend : endsOpen bs = false) (h : run ∈ runsOf bs) :
    isNumber run = true := by
  induction bs using run_induction with
  | empty => cases h
  | open_ c b hc hb => rw [endsOpen_append_singleton, hb] at hend; cases hend
  | terminated c b rest hc hb ih =>
    rw [endsOpen_terminated hb] at hend
    rw [runsOf_terminated hc hb, List.mem_cons] at h
    rcases h with rfl | h
    · exact isNumber_iff.2 ⟨c, b, rfl, hc, hb⟩
    · exact ih hend h

theorem runsOf_isNumber {run : List Byte} (hn : isNumber run = true) : runsOf run = [run] := by
  simpa [runsOf] using runsOf_number (rest := []) hn

theorem endsOpen_isNumber {run : List Byte} (hn : isNumber run = true) : endsOpen run = false := by
  obtain ⟨c, b, rfl, -, hb⟩ := isNumber_iff.1 hn
  rw [endsOpen_append_singleton, hb]

/-! ### `decode` in closed form -/

/-- What the loop of `decode` answers from a boundary: the first run that fails the check, then the last byte's flag,
decide. -/
theorem decodeLoop_cases (latch : MsbLatch) (bs : List Byte) (res : List Nat) :
    ((∃ run ∈ runsOf bs, RunOverflows latch run) ∧ decodeLoop latch bs 0 0 0 res = .err .overflow) ∨
    ((∀ run ∈ runsOf bs, ¬ RunOverflows latch run) ∧ endsOpen bs = true ∧
      decodeLoop latch bs 0 0 0 res = .err .incomplete) ∨
    ((∀ run ∈ runsOf bs, ¬ RunOverflows latch run) ∧ endsOpen bs = false ∧
      decodeLoop latch bs 0 0 0 res = .ok (res ++ (runsOf bs).map runValue)) := by
  induction bs using run_induction generalizing res with
  | empty => exact .inr (.inr (by simp [runsOf, endsOpen, decodeLoop]))
  | open_ c b hc hb =>
    rw [runsOf_open hc hb, decodeLoop_lastRun latch hc, endsOpen_append_singleton, hb]
    by_cases h : RunOverflows latch (c ++ [b])
    · exact .inl ⟨⟨_, List.mem_singleton_self _, h⟩, if_pos (runOverflows_append_singleton.1 h)⟩
    · refine .inr (.inl ⟨by simpa using h, rfl, ?_⟩)
      rw [if_neg (runOverflows_append_singleton.not.1 h), if_pos rfl]
  | terminated c b rest hc hb ih =>
    rw [runsOf_terminated hc hb, decodeLoop_number_eq latch hc hb, endsOpen_terminated hb]
    by_cases h : RunOverflows latch (c ++ [b])
    · exact .inl ⟨⟨_, List.mem_cons_self, h⟩, if_pos (runOverflows_append_singleton.1 h)⟩
    · rw [if_neg (runOverflows_append_singleton.not.1 h), List.forall_mem_cons]
      rcases ih (res ++ [runValue (c ++ [b])]) with ⟨hover, e⟩ | ⟨hpass, hend, e⟩ | ⟨hpass, hend, e⟩
      · exact .inl ⟨hover.imp fun _ => And.imp_left (List.mem_cons_of_mem _), e⟩
      · exact .inr (.inl ⟨⟨h, hpass⟩, hend, e⟩)
      · exact .inr (.inr ⟨⟨h, hpass⟩, hend, by rw [e]; simp⟩)

theorem decodeSeq_eq_overflow_iff {latch : MsbLatch} {bs : List Byte} :
    decodeSeq latch bs = .err .overflow ↔ ∃ run ∈ runsOf bs, RunOverflows latch run := by
  by_cases hne : bs = []
  · simp [hne, decodeSeq, runsOf]
  · rw [decodeSeq_eq latch hne]
    rcases decodeLoop_cases latch bs [] with ⟨hover, e⟩ | ⟨hpass, -, e⟩ | ⟨hpass, -, e⟩ <;> rw [e]
    · exact iff_of_true rfl hover
    · exact iff_of_false nofun fun ⟨run, hrun, h⟩ => hpass run hrun h
    · exact iff_of_false nofun fun ⟨run, hrun, h⟩ => hpass run hrun h

/-- Exactly the non-empty streams of whole numbers that pass the check are accepted, with their values. -/
theorem decodeSeq_eq_ok_iff {latch : MsbLatch} {bs : List Byte} {vs : List Nat} :
    decodeSeq latch bs = .ok vs ↔
      bs ≠ [] ∧ (∀ run ∈ runsOf bs, ¬ RunOverflows latch run) ∧ endsOpen bs = false ∧
        vs = (runsOf bs).map runValue := by
  by_cases hne : bs = []
  · simp [hne, decodeSeq]
  · rw [decodeSeq_eq latch hne]
    rcases decodeLoop_cases latch bs [] with ⟨⟨run, hrun, h⟩, e⟩ | ⟨-, hend, e⟩ | ⟨hpass, hend, e⟩ <;> rw [e]
    · exact iff_of_false nofun fun ⟨_, hpass, _⟩ => hpass run hrun h
    · exact iff_of_false nofun fun ⟨_, _, hend', _⟩ => Bool.false_ne_true (hend'.symm.trans hend)
    · exact ⟨fun h => ⟨hne, hpass, hend, by cases h; rfl⟩, fun ⟨_, _, _, h⟩ => by rw [h]; rfl⟩

/-! ### `FIRST_GROUP` -/

theorem exists_overlong_run_iff (bs : List Byte) :
    (∃ run ∈ runsOf bs, maxRunBytes (firstGroupBits run) < run.length) ↔
      ∃ run ∈ runsOf bs, RunOverflows .firstGroup run :=
  exists_congr fun _ => and_congr_right fun hrun => (runOverflows_firstGroup_iff (ne_nil_of_mem_runsOf hrun)).symm

/-- A stream that is one run: continuation bytes and a last byte (R74). -/
theorem eq_append_singleton_of_runsOf {run : List Byte} (h : runsOf run = [run]) :
    ∃ c b, run = c ++ [b] ∧ AllCont c := by
  rcases stream_cases run with hc | ⟨c, b, rest, rfl, hc, hb⟩
  · have hne : run ≠ [] := by rintro rfl; cases h
    exact ⟨_, _, (List.dropLast_append_getLast hne).symm, fun y hy => hc y (List.dropLast_subset run hy)⟩
  · rw [runsOf_terminated hc hb, List.cons.injEq] at h
    exact ⟨c, b, h.1.symm, hc⟩

/-- Its first bytes are one run too. -/
theorem runsOf_take {run : List Byte} (h : runsOf run = [run]) {k : Nat} (hpos : 0 < k) (hk : k ≤ run.length) :
    runsOf (run.take k) = [run.take k] := by
  obtain ⟨c, b, rfl, hc⟩ := eq_append_singleton_of_runsOf h
  rcases hk.lt_or_eq with hlt | rfl
  · have hkc : k ≤ c.length := by simpa [Nat.lt_succ_iff] using hlt
    rw [List.take_append_of_le_length hkc]
    refine runsOf_allCont (fun y hy => hc y (List.take_subset k c hy)) fun hnil => ?_
    have := congrArg List.length hnil
    rw [List.length_take, List.length_nil] at this
    omega
  · rw [List.take_length, h]

theorem firstGroupBits_take {run : List Byte} {k : Nat} (hpos : 0 < k) (hk : k ≤ run.length) :
    firstGroupBits (run.take k) = firstGroupBits run := by
  have hne : run.take k ≠ [] := List.ne_nil_of_length_pos (by rw [List.length_take]; omega)
  calc firstGroupBits (run.take k) = firstGroupBits (run.take k ++ run.drop k) := (firstGroupBits_append hne _).symm
    _ = firstGroupBits run := by rw [List.take_append_drop]

/-- After accepted bytes, the first bytes of a run overflow exactly where they are too many (R159). -/
theorem decodeSeq_append_take_eq_overflow_iff {before run : List Byte}
    (hbefore : before = [] ∨ ∃ vs, decodeSeq .firstGroup before = .ok vs) (hrun : runsOf run = [run]) {k : Nat}
    (hk : k ≤ run.length) :
    decodeSeq .firstGroup (before ++ run.take k) = .err .overflow ↔ maxRunBytes (firstGroupBits run) < k := by
  have hpass : (∀ r ∈ runsOf before, ¬ RunOverflows .firstGroup r) ∧ endsOpen before = false := by
    rcases hbefore with rfl | ⟨vs, hvs⟩
    · exact ⟨by simp [runsOf], rfl⟩
    · obtain ⟨-, hpass, hend, -⟩ := decodeSeq_eq_ok_iff.1 hvs
      exact ⟨hpass, hend⟩
  obtain ⟨hpass, hend⟩ := hpass
  have hbefore : ¬ ∃ r ∈ runsOf before, RunOverflows .firstGroup r := fun ⟨r, hr, hover⟩ => hpass r hr hover
  rw [decodeSeq_eq_overflow_iff, runsOf_append hend]
  rcases Nat.eq_zero_or_pos k with rfl | hpos
  · simpa [runsOf] using hpass
  · have hne : run.take k ≠ [] := List.ne_nil_of_length_pos (by rw [List.length_take]; omega)
    have hcheck := runOverflows_firstGroup_iff hne
    rw [firstGroupBits_take hpos hk, List.length_take_of_le hk] at hcheck
    rw [runsOf_take hrun hpos hk, ← hcheck]
    simp only [List.mem_append, List.mem_singleton, or_and_right, exists_or, exists_eq_left, hbefore, false_or]

/-- A stream that is one encoded number is accepted where that passes the check. -/
theorem decodeSeq_isNumber_eq_ok_iff {latch : MsbLatch} {run : List Byte} {vs : List Nat} (hn : isNumber run = true) :
    decodeSeq latch run = .ok vs ↔ ¬ RunOverflows latch run ∧ vs = [runValue run] := by
  simp [decodeSeq_eq_ok_iff, runsOf_isNumber hn, endsOpen_isNumber hn, isNumber_ne_nil hn]

/-- Settles O42: the cases of the loop, run by run; the check at a byte of a run compares its place with the bit length
of the first group. -/
theorem acceptedStreamsInClosedForm : Obligations.AcceptedStreamsInClosedForm := by
  refine ⟨fun bs => ?_, fun before run hbefore hrun k hk => decodeSeq_append_take_eq_overflow_iff hbefore hrun hk,
    fun run hn => ?_⟩
  · by_cases hne : bs = []
    · rw [hne]; rfl
    · have hiff := exists_overlong_run_iff bs
      rw [if_neg hne, decodeSeq_eq _ hne]
      rcases decodeLoop_cases .firstGroup bs [] with ⟨hover, e⟩ | ⟨hpass, hend, e⟩ | ⟨hpass, hend, e⟩ <;> rw [e]
      · rw [if_pos (hiff.2 hover)]
      · rw [if_neg (hiff.not.2 (by simpa using hpass)), if_pos hend]
      · rw [if_neg (hiff.not.2 (by simpa using hpass)), hend]; rfl
  · exact ⟨fun ⟨_, h⟩ => Nat.not_lt.1 ((decodeSeq_isNumber_eq_ok_iff hn).1 h).1,
      fun h => ⟨_, (decodeSeq_isNumber_eq_ok_iff hn).2 ⟨Nat.not_lt.2 h, rfl⟩⟩⟩

end Sys2Proof.Machine
end

section
/-! PROOFS. The functions `encode` and `decode` together (43_calls.md R151, R156 to R158, R160). -/

namespace Sys2Proof.Machine

/-! ### The encodings of a sequence -/

/-- `encode` of a sequence in range (R151). -/
theorem encodeSeq_of_inRange {xs : List Nat} (hxs : ∀ x ∈ xs, x ≤ maxValue) :
    encodeSeq xs = .ok (xs.flatMap encodeOne) := by
  refine if_neg fun hany => ?_
  obtain ⟨x, hx, hover⟩ := List.any_eq_true.1 hany
  exact absurd (of_decide_eq_true hover) (Nat.not_lt.2 (hxs x hx))

theorem map_runValue_encodeOne {xs : List Nat} (hxs : ∀ x ∈ xs, x ≤ maxValue) :
    (xs.map encodeOne).map runValue = xs := by
  rw [List.map_map]
  exact (List.map_congr_left fun x hx => runValue_encodeOne (hxs x hx)).trans (List.map_id xs)

theorem flatMap_encodeOne_ne_nil {xs : List Nat} (hne : xs ≠ []) : xs.flatMap encodeOne ≠ [] := by
  obtain ⟨x, xs, rfl⟩ := List.exists_cons_of_ne_nil hne
  rw [List.flatMap_cons]
  exact List.append_ne_nil_of_left_ne_nil (isNumber_ne_nil (isNumber_encodeOne x)) _

theorem endsOpen_append {x y : List Byte} (hx : endsOpen x = false) (hy : endsOpen y = false) :
    endsOpen (x ++ y) = false := by
  rcases List.eq_nil_or_concat y with rfl | ⟨l, b, rfl⟩
  · rwa [List.append_nil]
  · rw [List.concat_eq_append, endsOpen_append_singleton] at hy
    rw [List.concat_eq_append, ← List.append_assoc, endsOpen_append_singleton, hy]

theorem endsOpen_flatMap_encodeOne (xs : List Nat) : endsOpen (xs.flatMap encodeOne) = false := by
  induction xs with
  | nil => rfl
  | cons x xs ih => exact endsOpen_append (endsOpen_isNumber (isNumber_encodeOne x)) ih

/-! ### Decoding an encoding -/

/-- After a first group that is not 0, a run's value has the bits of that group and seven for each further byte. -/
theorem bitLen_runValue {run : List Byte} (h : group (run.headD 0) ≠ 0) :
    bitLen (runValue run) = 7 * (run.length - 1) + firstGroupBits run := by
  induction run using List.reverseRecOn with
  | nil => exact absurd rfl h
  | append_singleton c b ih =>
    by_cases hc : c = []
    · subst hc
      simp [runValue, firstGroupBits]
    · rw [headD_append_of_ne_nil hc] at h
      have hlen := List.length_pos_of_ne_nil hc
      rw [runValue_append_singleton, bitLen_mul_add (runValue_pos h) (group_lt b), ih h, firstGroupBits_append hc,
        List.length_append, List.length_singleton]
      omega

/-- The encoding of a value in range passes the check, which compares its bit length with 32 (R157). -/
theorem not_runOverflows_encodeOne (latch : MsbLatch) {v : Nat} (hv : v ≤ maxValue) :
    ¬ RunOverflows latch (encodeOne v) := by
  rw [RunOverflows, Nat.not_lt]
  by_cases hlen : (encodeOne v).length = 1
  · have hbits := latchedBits_le latch (encodeOne v)
    omega
  · have hhead := group_head_encodeOne_ne_zero hv hlen
    have hlatch : latchedBits latch (encodeOne v) = firstGroupBits (encodeOne v) := by
      cases latch with
      | firstGroup => rfl
      | accZero => exact latchedBits_of_head_ne_zero hhead
    rw [hlatch, ← bitLen_runValue hhead, runValue_encodeOne hv]
    exact bitLen_le_iff.2 (Nat.lt_succ_of_le hv)

/-- The stream of the encodings is cut into them, none fails the check, and their values are the sequence (R156). -/
theorem decodeSeq_flatMap_encodeOne (latch : MsbLatch) {xs : List Nat} (hne : xs ≠ [])
    (hxs : ∀ x ∈ xs, x ≤ maxValue) : decodeSeq latch (xs.flatMap encodeOne) = .ok xs := by
  refine decodeSeq_eq_ok_iff.2 ⟨flatMap_encodeOne_ne_nil hne, fun run hrun => ?_, endsOpen_flatMap_encodeOne xs, ?_⟩
  · rw [runsOf_flatMap_encodeOne] at hrun
    obtain ⟨x, hx, rfl⟩ := List.mem_map.1 hrun
    exact not_runOverflows_encodeOne latch (hxs x hx)
  · rw [runsOf_flatMap_encodeOne, map_runValue_encodeOne hxs]

/-- Settles O39, number by number. -/
theorem decodeOfEncodeIsIdentity : Obligations.DecodeOfEncodeIsIdentity :=
  ⟨fun latch _ hne hxs => ⟨_, encodeSeq_of_inRange hxs, decodeSeq_flatMap_encodeOne latch hne hxs⟩, rfl, fun _ => rfl⟩

/-! ### Encodings are self-delimiting -/

theorem encodeOne_injective {v w : Nat} (hv : v ≤ maxValue) (hw : w ≤ maxValue) (h : encodeOne v = encodeOne w) :
    v = w := by
  rw [← runValue_encodeOne hv, h, runValue_encodeOne hw]

theorem flatMap_encodeOne_injective {xs ys : List Nat} (hxs : ∀ x ∈ xs, x ≤ maxValue) (hys : ∀ y ∈ ys, y ≤ maxValue)
    (h : xs.flatMap encodeOne = ys.flatMap encodeOne) : xs = ys := by
  rw [← map_runValue_encodeOne hxs, ← runsOf_flatMap_encodeOne, h, runsOf_flatMap_encodeOne,
    map_runValue_encodeOne hys]

/-- An encoded number that begins another is the whole of it: it ends where the first run does (R74). -/
theorem isNumber_eq_of_leading {m n : List Byte} (hm : isNumber m = true) (hn : isNumber n = true) (h : m <+: n) :
    m = n := by
  obtain ⟨rest, rfl⟩ := h
  have hruns := (runsOf_number (rest := rest) hm).symm.trans (runsOf_isNumber hn)
  exact (List.cons.inj hruns).1

/-- Settles O47: the runs of a stream of encodings are the encodings, and their values the sequence. -/
theorem encodingIsSelfDelimiting : Obligations.EncodingIsSelfDelimiting := by
  refine ⟨fun xs ys hxs hys h => ?_, fun v w hv hw h => ?_⟩
  · rw [encodeSeq_of_inRange hxs, encodeSeq_of_inRange hys] at h
    exact flatMap_encodeOne_injective hxs hys (CallResult.ok.inj h)
  · exact encodeOne_injective hv hw (isNumber_eq_of_leading (isNumber_encodeOne v) (isNumber_encodeOne w) h)

/-! ### Encoding what was decoded -/

/-- The minimal stream of the same values: each run replaced by the encoding of its value (R158). -/
def reencoded (bs : List Byte) : List Byte := ((runsOf bs).map runValue).flatMap encodeOne

theorem reencoded_eq_self {bs : List Byte} (h : ∀ run ∈ runsOf bs, encodeOne (runValue run) = run) :
    reencoded bs = bs := by
  calc reencoded bs = ((runsOf bs).map fun run => encodeOne (runValue run)).flatten := by
        rw [reencoded, List.flatMap_map, List.flatMap_def]
    _ = (runsOf bs).flatten := by rw [List.map_congr_left h, List.map_id']
    _ = bs := flatten_runsOf bs

theorem reencoded_length_lt {bs : List Byte}
    (hle : ∀ run ∈ runsOf bs, (encodeOne (runValue run)).length ≤ run.length)
    (hlt : ∃ run ∈ runsOf bs, (encodeOne (runValue run)).length < run.length) : (reencoded bs).length < bs.length := by
  calc (reencoded bs).length = ((runsOf bs).map fun run => (encodeOne (runValue run)).length).sum := by
        rw [reencoded, List.length_flatMap, List.map_map]; rfl
    _ < ((runsOf bs).map List.length).sum := List.sum_lt_sum _ _ hle hlt
    _ = bs.length := by rw [← List.length_flatten, flatten_runsOf]

/-- A padded number is longer than the encoding of its value (R75). -/
theorem encodeOne_length_lt_of_isPadded {run : List Byte} (h : isPadded run = true) :
    (encodeOne (runValue run)).length < run.length := by
  have hlen := (isPadded_iff.1 h).1
  have := encodeOne_length_le_of_lt (by omega) (runValue_lt_of_isPadded h)
  omega

/-- Settles O41: the runs of an accepted stream are encoded numbers of values in range; one that is not padded is the
encoding of its value, and a padded one is longer. -/
theorem encodeOfDecodeIsTheMinimalStream : Obligations.EncodeOfDecodeIsTheMinimalStream := by
  intro latch bs vs h
  obtain ⟨hne, hpass, hend, rfl⟩ := decodeSeq_eq_ok_iff.1 h
  have number : ∀ run ∈ runsOf bs, isNumber run = true := fun _ => isNumber_of_mem_runsOf hend
  have inRange : ∀ run ∈ runsOf bs, runValue run ≤ maxValue := fun run hrun => runValue_le_maxValue (hpass run hrun)
  have minimal : ∀ run ∈ runsOf bs, (encodeOne (runValue run)).length ≤ run.length := fun run hrun =>
    encodeOne_length_le_of_lt (List.length_pos_of_ne_nil (ne_nil_of_mem_runsOf hrun)) (runValue_lt run)
  have hvs : ∀ v ∈ (runsOf bs).map runValue, v ≤ maxValue := List.forall_mem_map.2 inRange
  have hvsne : (runsOf bs).map runValue ≠ [] := by simpa using runsOf_ne_nil hne
  refine ⟨reencoded bs, encodeSeq_of_inRange hvs, decodeSeq_flatMap_encodeOne latch hvsne hvs, fun hp => ?_,
    fun ⟨run, hrun, hp⟩ => ?_⟩
  · exact reencoded_eq_self fun run hrun =>
      (eq_encodeOne_of_not_padded (number run hrun) (hp run hrun) (inRange run hrun)).symm
  · exact reencoded_length_lt minimal ⟨run, hrun, encodeOne_length_lt_of_isPadded hp⟩

end Sys2Proof.Machine
end

section
/-! PROOFS. A whole call computes the function of the source, with `NOP`s anywhere (43_calls.md R150 to R155). -/

namespace Sys2Proof.Machine

/-! ### What a call leaves unchanged -/

/-- Operations that change nothing may be left out (R103, R121). -/
theorem runOps_filter_ne {i : Instr} (hi : ∀ s, exec i s = .next s) (ops : List Instr) (s : State) :
    runOps (ops.filter fun j => decide (j ≠ i)) s = runOps ops s := by
  induction ops generalizing s with
  | nil => rfl
  | cons j ops ih =>
    by_cases hj : j = i
    · rw [List.filter_cons_of_neg (by simp [hj]), ih, hj, runOps_cons, hi, andThen_next]
    · rw [List.filter_cons_of_pos (by simp [hj]), runOps_cons, runOps_cons, funext ih]

theorem runOps_pending_eq {ops : List Instr} {s t : State} (h : runOps ops s = .next t) : t.pending = s.pending :=
  runOps_keeps (P := fun u => u.pending = s.pending) (fun _ _ _ _ hx hu => (effect_of_exec hx).pending_eq.trans hu) h rfl

/-- Operations of `ENC` leave `DEC` alone (R22). -/
theorem runOps_dec_eq {ops : List Instr} (hops : ∀ i ∈ ops, i.block = .enc) {s t : State}
    (h : runOps ops s = .next t) : t.dec = s.dec :=
  runOps_keeps (P := fun u => u.dec = s.dec)
    (fun i hi _ _ hx hu => ((effect_of_exec hx).dec_eq (hops i hi)).trans hu) h rfl

/-- Operations of `DEC` leave `ENC` alone (R22). -/
theorem runOps_enc_eq {ops : List Instr} (hops : ∀ i ∈ ops, i.block = .dec) {s t : State}
    (h : runOps ops s = .next t) : t.enc = s.enc :=
  runOps_keeps (P := fun u => u.enc = s.enc)
    (fun i hi _ _ hx hu => ((effect_of_exec hx).enc_eq (hops i hi)).trans hu) h rfl

/-! ### The encode call -/

theorem block_of_mem_encodeCall {xs : List Nat} {i : Instr} (h : i ∈ encodeCall xs) : i.block = .enc := by
  simp only [encodeCall, List.mem_cons, List.mem_append, List.mem_map, List.not_mem_nil, or_false] at h
  rcases h with rfl | ⟨x, -, rfl⟩ | rfl <;> rfl

/-- The rest of an encode call: pushes, then `END`. -/
def encodeRest (xs : List Nat) : List Instr := xs.map .encPush ++ [.encEnd]

theorem runOps_encodeCall_eq (xs : List Nat) (s : State) :
    runOps (encodeCall xs) s = runOps (encodeRest xs) (clear .enc s) := rfl

theorem runOps_encodeRest_nil (s : State) : runOps (encodeRest []) s = exec .encEnd s := andThen_next_right _

theorem runOps_encodeRest_cons (x : Nat) (xs : List Nat) (s : State) :
    runOps (encodeRest (x :: xs)) s = andThen (exec (.encPush x) s) (runOps (encodeRest xs)) := rfl

/-- In a closed call all of it is discarded (R188). -/
theorem runOps_encodeRest_of_closed {s : State} (closed : s.enc.phase ≠ .opened) (xs : List Nat) :
    runOps (encodeRest xs) s = .next s := by
  induction xs with
  | nil => rw [runOps_encodeRest_nil, exec_of_effect (.encEndDiscarded closed)]
  | cons x xs ih => rw [runOps_encodeRest_cons, exec_of_effect (.encDiscarded x closed), andThen_next, ih]

/-- What an encode call answers whose rest pushes `xs` after the bytes `before` (R151). -/
def encodeOnto (before : List Byte) (xs : List Nat) : CallResult (List Byte) :=
  if xs.any outOfRange then .err .argument else .ok (before ++ xs.flatMap encodeOne)

theorem encodeOnto_nil (xs : List Nat) : encodeOnto [] xs = encodeSeq xs := rfl

theorem encodeOnto_cons_of_above {x : Nat} (hx : maxValue < x) (before : List Byte) (xs : List Nat) :
    encodeOnto before (x :: xs) = .err .argument :=
  if_pos (by rw [List.any_cons, outOfRange, decide_eq_true hx, Bool.true_or])

theorem encodeOnto_cons_of_inRange {x : Nat} (hx : x ≤ maxValue) (before : List Byte) (xs : List Nat) :
    encodeOnto before (x :: xs) = encodeOnto (before ++ encodeOne x) xs := by
  have hx' : outOfRange x = false := decide_eq_false (Nat.not_lt.2 hx)
  simp only [encodeOnto, List.any_cons, hx', Bool.false_or, List.flatMap_cons, List.append_assoc]

/-- By induction on the values: each appends its encoding, until one out of range closes the call with an error. -/
theorem encResult_of_encodeRest {xs : List Nat} {s t : State} (opened : s.enc.phase = .opened)
    (h : runOps (encodeRest xs) s = .next t) : encResult t = encodeOnto s.enc.obuf xs := by
  induction xs generalizing s with
  | nil =>
    rw [runOps_encodeRest_nil] at h
    cases effect_of_exec h with
    | encEndDiscarded closed => exact absurd opened closed
    | encDelivered => simp [encResult, encodeOnto]
  | cons x xs ih =>
    rw [runOps_encodeRest_cons] at h
    obtain ⟨u, hu, hrest⟩ := andThen_eq_next.1 h
    cases effect_of_exec hu with
    | encDiscarded _ closed => exact absurd opened closed
    | encRaised _ _ above =>
      rw [runOps_encodeRest_of_closed (by simp)] at hrest
      cases hrest
      exact (encodeOnto_cons_of_above above _ xs).symm
    | encAppended _ _ inRange =>
      have hres := ih (s := { s with enc := { s.enc with obuf := s.enc.obuf ++ encodeOne x } }) opened hrest
      exact hres.trans (encodeOnto_cons_of_inRange inRange _ xs).symm

/-- The values that an encode call encodes: those before the first one out of range (R152). -/
def valuesBeforeError (xs : List Nat) : List Nat := xs.takeWhile fun x => decide (x ≤ 0xFFFFFFFF)

theorem valuesBeforeError_cons_of_inRange {x : Nat} (hx : x ≤ maxValue) (xs : List Nat) :
    valuesBeforeError (x :: xs) = x :: valuesBeforeError xs := List.takeWhile_cons_of_pos (decide_eq_true hx)

/-- No push is refused where the encodings of the values before the first one out of range fit. -/
theorem exists_runOps_encodeRest {xs : List Nat} {s : State} (opened : s.enc.phase = .opened)
    (fit : fits s.cfg.encCap (s.enc.obuf.length + ((valuesBeforeError xs).flatMap encodeOne).length) = true) :
    ∃ t, runOps (encodeRest xs) s = .next t := by
  induction xs generalizing s with
  | nil => exact ⟨_, (runOps_encodeRest_nil s).trans (exec_of_effect (.encDelivered opened))⟩
  | cons x xs ih =>
    rw [runOps_encodeRest_cons]
    rcases Nat.lt_or_ge maxValue x with above | inRange
    · rw [exec_of_effect (.encRaised x opened above), andThen_next, runOps_encodeRest_of_closed (by simp)]
      exact ⟨_, rfl⟩
    · rw [valuesBeforeError_cons_of_inRange inRange, List.flatMap_cons, List.length_append, ← Nat.add_assoc] at fit
      rw [exec_of_effect (.encAppended x opened inRange (fits_mono fit (Nat.le_add_right _ _))), andThen_next]
      exact ih opened (by rwa [List.length_append])

/-- Settles O37, from the rest of the call after `CLR`, which gives every state the same open call. -/
theorem encoderComputesEncode : Obligations.EncoderComputesEncode := by
  intro s xs ops hops
  rw [← runOps_filter_ne (i := .encNop) (fun _ => rfl) ops s, hops]
  refine ⟨fun t h => ⟨?_, runOps_cfg_eq h, runOps_dec_eq (fun _ => block_of_mem_encodeCall) h, runOps_pending_eq h⟩,
    fun hcap => ?_⟩
  · rw [runOps_encodeCall_eq] at h
    exact (encResult_of_encodeRest rfl h).trans (encodeOnto_nil xs)
  · rw [runOps_encodeCall_eq]
    refine exists_runOps_encodeRest rfl (fits_iff.2 fun cap hc => ?_)
    exact (Nat.zero_add _).trans_le (hcap cap hc)

/-! ### The decode call -/

theorem block_of_mem_decodeCall {bs : List Byte} {i : Instr} (h : i ∈ decodeCall bs) : i.block = .dec := by
  simp only [decodeCall, List.mem_cons, List.mem_append, List.mem_map, List.not_mem_nil, or_false] at h
  rcases h with rfl | ⟨b, -, rfl⟩ | rfl <;> rfl

/-- The rest of a decode call: pushes, then `END`. -/
def decodeRest (bs : List Byte) : List Instr := bs.map .decPush ++ [.decEnd]

theorem runOps_decodeCall_eq (bs : List Byte) (s : State) :
    runOps (decodeCall bs) s = runOps (decodeRest bs) (clear .dec s) := rfl

theorem runOps_decodeRest_nil (s : State) : runOps (decodeRest []) s = exec .decEnd s := andThen_next_right _

theorem runOps_decodeRest_cons (b : Byte) (bs : List Byte) (s : State) :
    runOps (decodeRest (b :: bs)) s = andThen (exec (.decPush b) s) (runOps (decodeRest bs)) := rfl

/-- In a closed call all of it is discarded (R188). -/
theorem runOps_decodeRest_of_closed {s : State} (closed : s.dec.phase ≠ .opened) (bs : List Byte) :
    runOps (decodeRest bs) s = .next s := by
  rw [decodeRest, runOps_append, runOps_decPush_of_closed closed, andThen_next]
  exact (andThen_next_right _).trans (exec_of_effect (.decEndDiscarded closed))

/-- The loop of `decode` from the registers of `DEC`, read as numbers (R154). -/
def decodeFrom (s : State) (bs : List Byte) : CallResult (List Nat) :=
  decodeLoop s.cfg.msbLatch bs s.dec.acc.toNat s.dec.off.toNat s.dec.msb.toNat (s.dec.rbuf.map BitVec.toNat)

/-- After `CLR` it is the loop as `decode` starts it. -/
theorem decodeFrom_clear (s : State) {bs : List Byte} (hne : bs ≠ []) :
    decodeFrom (clear .dec s) bs = decodeSeq s.cfg.msbLatch bs := (decodeSeq_eq _ hne).symm

/-- One byte of the loop, with the check that `PUSH` makes (R125). -/
theorem decodeFrom_cons (s : State) (b : Byte) (bs : List Byte) :
    decodeFrom s (b :: bs) =
      if 32 < s.dec.off.toNat + nextMsb s b then .err .overflow
      else if contFlag b = true then
        decodeLoop s.cfg.msbLatch bs (s.dec.acc.toNat * 128 + group b) (s.dec.off.toNat + 7) (nextMsb s b)
          (s.dec.rbuf.map BitVec.toNat)
      else decodeLoop s.cfg.msbLatch bs 0 0 (nextMsb s b)
        (s.dec.rbuf.map BitVec.toNat ++ [s.dec.acc.toNat * 128 + group b]) := by
  rw [decodeFrom, decodeLoop_cons, group_eq]
  rfl

section
variable {s : State} (inv : s.dec.Inv s.cfg.msbLatch) (opened : s.dec.phase = .opened) {b : Byte}
  (pass : s.dec.off.toNat + nextMsb s b ≤ 32) (bs : List Byte)
include inv opened pass

/-- A continuation byte does to the registers what it does in the loop: no bit is lost (R41, R127). -/
theorem decodeFrom_continued (cont : contFlag b = true) :
    decodeFrom (continueNumber (accumulate s.dec.acc (group b)) (latchGroup b s)) bs = decodeFrom s (b :: bs) := by
  have hle := (Dec.offsetInv_iff.1 inv.offset).2
  have hoff : (s.dec.off + 7).toNat = s.dec.off.toNat + 7 := by
    rw [BitVec.toNat_add]; exact Nat.mod_eq_of_lt (by simp; omega)
  rw [decodeFrom_cons, if_neg (Nat.not_lt.2 pass), if_pos cont]
  simp only [decodeFrom, continueNumber_cfg, continueNumber_dec, latchGroup_cfg, latchGroup_dec, hoff,
    latchedMsb_toNat, accumulate_exact inv opened pass]

/-- And so does a terminal byte, whose word is exact (R40, R127). -/
theorem decodeFrom_completed (terminal : contFlag b = false) :
    decodeFrom { s with dec := { (latchGroup b s).dec with
        acc := 0, off := 0, rbuf := s.dec.rbuf ++ [accumulate s.dec.acc (group b)] } } bs =
      decodeFrom s (b :: bs) := by
  rw [decodeFrom_cons, if_neg (Nat.not_lt.2 pass), if_neg (by simp [terminal])]
  simp [decodeFrom, latchedMsb_toNat, accumulate_exact inv opened pass]

end

/-- By induction on the bytes: each does a round of the loop, until the check fails and closes the call. At `END` a
byte must have been seen. -/
theorem decResult_of_decodeRest {bs : List Byte} {s t : State} (inv : s.dec.Inv s.cfg.msbLatch)
    (opened : s.dec.phase = .opened) (seen : bs = [] → s.dec.seen = true)
    (h : runOps (decodeRest bs) s = .next t) : (decResult t).toNats = decodeFrom s bs := by
  induction bs generalizing s with
  | nil =>
    rw [runOps_decodeRest_nil] at h
    cases effect_of_exec h with
    | decEndDiscarded closed => exact absurd opened closed
    | decEmpty _ unseen => exact absurd (unseen.symm.trans (seen rfl)) Bool.false_ne_true
    | decIncomplete _ _ inside => exact (if_pos (toNat_ne_zero inside)).symm
    | decDelivered _ _ boundary => simp [decResult, CallResult.toNats, decodeFrom, decodeLoop, boundary]
  | cons b bs ih =>
    rw [runOps_decodeRest_cons] at h
    obtain ⟨u, hu, hrest⟩ := andThen_eq_next.1 h
    have hux := effect_of_exec hu
    have uinv := hux.dec_inv inv
    cases hux with
    | decDiscarded _ closed => exact absurd opened closed
    | decRaised _ _ above =>
      rw [runOps_decodeRest_of_closed (by simp)] at hrest
      cases hrest
      rw [decodeFrom_cons, if_pos above]
      rfl
    | decContinued _ _ pass cont =>
      exact (ih uinv opened (fun _ => rfl) hrest).trans (decodeFrom_continued inv opened pass bs cont)
    | decCompleted _ _ pass terminal =>
      exact (ih uinv opened (fun _ => rfl) hrest).trans (decodeFrom_completed inv opened pass bs terminal)

theorem decResult_of_decodeCall {bs : List Byte} {s t : State} (h : runOps (decodeCall bs) s = .next t) :
    (decResult t).toNats = decodeSeq s.cfg.msbLatch bs := by
  rw [runOps_decodeCall_eq] at h
  by_cases hne : bs = []
  · subst hne
    rw [runOps_decodeRest_nil, exec_of_effect (.decEmpty rfl rfl)] at h
    cases h; rfl
  · rw [decResult_of_decodeRest (Dec.reset_inv _) rfl (fun hnil => absurd hnil hne) h, decodeFrom_clear s hne]

/-- No push is refused where the terminal bytes are at most as many as fit. -/
theorem exists_runOps_decodeRest {bs : List Byte} {s : State} (opened : s.dec.phase = .opened)
    (fit : fits s.cfg.decCap (s.dec.rbuf.length + (bs.filter fun b => !contFlag b).length) = true) :
    ∃ t, runOps (decodeRest bs) s = .next t := by
  induction bs generalizing s with
  | nil =>
    rw [runOps_decodeRest_nil]
    exact exec_next_of_ne_push (by decide) s
  | cons b bs ih =>
    rw [runOps_decodeRest_cons]
    rcases Nat.lt_or_ge 32 (s.dec.off.toNat + nextMsb s b) with above | pass
    · rw [exec_of_effect (.decRaised b opened above), andThen_next, runOps_decodeRest_of_closed (by simp)]
      exact ⟨_, rfl⟩
    · cases hb : contFlag b with
      | true =>
        rw [exec_of_effect (.decContinued b opened pass hb), andThen_next]
        exact ih opened (by simpa [hb] using fit)
      | false =>
        rw [List.filter_cons_of_pos (by simp [hb]), List.length_cons, Nat.add_left_comm, Nat.add_comm] at fit
        rw [exec_of_effect (.decCompleted b opened pass hb (fits_mono fit (by omega))), andThen_next]
        exact ih opened (fits_mono fit (by simp))

/-- Settles O38, by the simulation of the loop from the call that `CLR` opens, where the invariant holds. -/
theorem decoderComputesDecode : Obligations.DecoderComputesDecode := by
  intro s bs ops hops
  rw [← runOps_filter_ne (i := .decNop) (fun _ => rfl) ops s, hops]
  refine ⟨fun t h => ⟨decResult_of_decodeCall h, runOps_cfg_eq h, runOps_enc_eq (fun _ => block_of_mem_decodeCall) h,
    runOps_pending_eq h⟩, fun hcap => ?_⟩
  rw [runOps_decodeCall_eq]
  refine exists_runOps_decodeRest rfl (fits_iff.2 fun cap hc => ?_)
  exact (Nat.zero_add _).trans_le (hcap cap hc)

end Sys2Proof.Machine
end

section
/-! PROOFS. What a block ends in depends on its own operations only (43_calls.md R161; 60_exceptions.md R194). -/

namespace Sys2Proof.Machine

/-- The part of a state that operations of a block read and write: the parameters and the block, with the rest at
reset. -/
def State.only (s : State) : Block → State
  | .enc => { s with dec := Dec.reset, pending := [] }
  | .dec => { s with enc := Enc.reset, pending := [] }

theorem exec_only {i : Instr} {s t : State} (h : exec i s = .next t) :
    exec i (s.only i.block) = .next (t.only i.block) := by
  have e := effect_of_exec h
  cases hb : i.block with
  | enc =>
    have hother := exec_of_effect (e.withBlock (b := .dec) (by simp [hb]) State.reset)
    exact (exec_withPending i (s.withBlock .dec State.reset) []).trans (by rw [hother]; rfl)
  | dec =>
    have hother := exec_of_effect (e.withBlock (b := .enc) (by simp [hb]) State.reset)
    exact (exec_withPending i (s.withBlock .enc State.reset) []).trans (by rw [hother]; rfl)

theorem only_enc_eq_iff {s s' : State} : s.only .enc = s'.only .enc ↔ s.cfg = s'.cfg ∧ s.enc = s'.enc := by
  simp [State.only]

theorem only_dec_eq_iff {s s' : State} : s.only .dec = s'.only .dec ↔ s.cfg = s'.cfg ∧ s.dec = s'.dec := by
  simp [State.only]

theorem only_withBlock {b c : Block} (h : c ≠ b) (s d : State) : (s.withBlock c d).only b = s.only b := by
  cases b with
  | enc => cases c with
    | enc => exact absurd rfl h
    | dec => rfl
  | dec => cases c with
    | enc => rfl
    | dec => exact absurd rfl h

theorem Effect.eq_of_nop {i : Instr} {s t : State} (h : Effect s i t) (hi : i.op = .nop) : t = s := by
  cases h <;> cases hi <;> rfl

/-- A `NOP` and an operation of the other block leave the part of block `b` as it was (R103, R121, R194). -/
theorem Effect.only_eq {b : Block} {i : Instr} {s t : State} (h : Effect s i t) (hi : i.block = b → i.op = .nop) :
    t.only b = s.only b := by
  by_cases hb : i.block = b
  · rw [h.eq_of_nop (hi hb)]
  · rw [h.eq_withBlock, only_withBlock hb]

theorem actsOn_cons_of_acts {b : Block} {i : Instr} (hb : i.block = b) (hop : i.op ≠ .nop) (ops : List Instr) :
    actsOn b (i :: ops) = i :: actsOn b ops := List.filter_cons_of_pos (by simp [hb, hop])

theorem actsOn_cons_of_not_acts {b : Block} {i : Instr} (h : i.block = b → i.op = .nop) (ops : List Instr) :
    actsOn b (i :: ops) = actsOn b ops := List.filter_cons_of_neg (by simpa using h)

/-- By induction on the operations: those that act on block `b` alone take its part of the state where all take the
state. -/
theorem runOps_actsOn (b : Block) {ops : List Instr} {s t : State} (h : runOps ops s = .next t) :
    runOps (actsOn b ops) (s.only b) = .next (t.only b) := by
  induction ops generalizing s with
  | nil => cases h; rfl
  | cons i ops ih =>
    obtain ⟨u, hu, hrest⟩ := andThen_eq_next.1 h
    by_cases hi : i.block = b → i.op = .nop
    · rw [actsOn_cons_of_not_acts hi, ← (effect_of_exec hu).only_eq hi]
      exact ih hrest
    · obtain ⟨rfl, hop⟩ := Classical.not_imp.1 hi
      rw [actsOn_cons_of_acts rfl hop, runOps_cons, exec_only hu, andThen_next]
      exact ih hrest

/-- `CLR` gives every block the same content, whatever it held (R106, R129). -/
theorem exec_clr_only (b : Block) {s₁ s₂ : State} (hcfg : s₁.cfg = s₂.cfg) :
    exec (Instr.ofFields 0 b .clear) (s₁.only b) = exec (Instr.ofFields 0 b .clear) (s₂.only b) := by
  cases b <;> exact congrArg (fun cfg => Host.Outcome.next { State.reset with cfg := cfg }) hcfg

/-- Two runs with the same operations of block `b`, from the same part of the state or beginning with its `CLR`, leave
the same part (R161). -/
theorem only_eq_of_actsOn_eq {b : Block} {s₁ s₂ t₁ t₂ : State} {ops₁ ops₂ : List Instr} (hcfg : s₁.cfg = s₂.cfg)
    (h₁ : runOps ops₁ s₁ = .next t₁) (h₂ : runOps ops₂ s₂ = .next t₂) (hops : actsOn b ops₁ = actsOn b ops₂)
    (start : s₁.only b = s₂.only b ∨ (actsOn b ops₁).head? = some (Instr.ofFields 0 b .clear)) :
    t₁.only b = t₂.only b := by
  have run₁ := runOps_actsOn b h₁
  have run₂ := runOps_actsOn b h₂
  rw [← hops] at run₂
  have same : runOps (actsOn b ops₁) (s₁.only b) = runOps (actsOn b ops₁) (s₂.only b) := by
    rcases start with hs | hclr
    · rw [hs]
    · obtain ⟨rest, hrest⟩ := List.head?_eq_some_iff.1 hclr
      rw [hrest, runOps_cons, runOps_cons, exec_clr_only b hcfg]
  exact Host.Outcome.next.inj (run₁.symm.trans (same.trans run₂))

/-- Settles O48, block by block. -/
theorem outcomeDependsOnOwnOperationsOnly : Obligations.OutcomeDependsOnOwnOperationsOnly := by
  intro s₁ s₂ t₁ t₂ ops₁ ops₂ hcfg h₁ h₂
  refine ⟨fun hops start => ?_, fun hops start => ?_⟩
  · have hs := start.imp_left fun henc => only_enc_eq_iff.2 ⟨hcfg, henc⟩
    exact (only_enc_eq_iff.1 (only_eq_of_actsOn_eq hcfg h₁ h₂ hops hs)).2
  · have hs := start.imp_left fun hdec => only_dec_eq_iff.2 ⟨hcfg, hdec⟩
    exact (only_dec_eq_iff.1 (only_eq_of_actsOn_eq hcfg h₁ h₂ hops hs)).2

end Sys2Proof.Machine
end

section
/-! PROOFS. Idle cycles, and error entry by the table of causes (60_exceptions.md R181 to R186, R191, R195). -/

namespace Sys2Proof.Machine

/-! ### Idle cycles -/

/-- An idle cycle is `NOP` at both ports: it is taken, and nothing else happens (R195). -/
theorem step_of_idle {s : State} (h : s.cycle = Cycle.idle) : step s = .next s.advance := by
  have hi : decode s.cfg .enc s.cycle.encWord = .ok .encNop := by rw [h]; exact decode_zero s.cfg .enc
  have hj : decode s.cfg .dec s.cycle.decWord = .ok .decNop := by rw [h]; exact decode_zero s.cfg .dec
  exact step_of_decode (by rw [h]; rfl) (by rw [h]; exact idle_fitsIndices s.cfg) hi hj

/-- Settles O9: past the last presented cycle, and in a presented idle one, the present cycle is idle. -/
theorem idleCyclesKeepEveryRegister : Obligations.IdleCyclesKeepEveryRegister := by
  rintro ⟨cfg, enc, dec, pending⟩
  refine ⟨?_, ?_⟩
  · rintro rfl
    exact step_of_idle rfl
  · rintro rest rfl
    exact step_of_idle rfl

/-! ### Error entry -/

/-- `ENC` comes into `ERR` by the one row of R184 that names it. -/
theorem Effect.enc_error_entry {s t : State} {i : Instr} (h : Effect s i t) (before : s.enc.phase ≠ .err)
    (after : t.enc.phase = .err) :
    s.enc.phase = .opened ∧ (∃ v, i = .encPush v ∧ maxValue < v) ∧ t = raise .enc .argument s := by
  cases h with
  | encRaised v opened above => exact ⟨opened, ⟨v, rfl, above⟩, rfl⟩
  | encNop | encDiscarded | encAppended | encEndDiscarded => exact absurd after before
  | encDelivered | encCleared => cases after
  | decNop | decDiscarded | decRaised | decContinued | decCompleted | decEndDiscarded | decEmpty | decIncomplete
  | decDelivered | decCleared => exact absurd after before

/-- `DEC` comes into `ERR` by one of the three rows of R184 that name it. -/
theorem Effect.dec_error_entry {s t : State} {i : Instr} (h : Effect s i t) (before : s.dec.phase ≠ .err)
    (after : t.dec.phase = .err) :
    s.dec.phase = .opened ∧
      ((∃ b, i = .decPush b ∧ 32 < s.dec.off.toNat + nextMsb s b ∧ t = raise .dec .overflow (latchGroup b s)) ∨
        (i = .decEnd ∧ s.dec.seen = false ∧ t = raise .dec .argument s) ∨
        (i = .decEnd ∧ s.dec.seen = true ∧ s.dec.off ≠ 0 ∧ t = raise .dec .incomplete s)) := by
  cases h with
  | decRaised b opened above => exact ⟨opened, .inl ⟨b, rfl, above, rfl⟩⟩
  | decEmpty opened unseen => exact ⟨opened, .inr (.inl ⟨rfl, unseen, rfl⟩)⟩
  | decIncomplete opened seen inside => exact ⟨opened, .inr (.inr ⟨rfl, seen, inside, rfl⟩)⟩
  | decNop | decDiscarded | decContinued | decCompleted | decEndDiscarded => exact absurd after before
  | decDelivered | decCleared => cases after
  | encNop | encDiscarded | encRaised | encAppended | encEndDiscarded | encDelivered | encCleared =>
    exact absurd after before

/-- Settles O15: the rows, with error entry written out; `dec_msb` is what the `PUSH` latched. -/
theorem everyErrorEntryIsARowOfTheTable : Obligations.EveryErrorEntryIsARowOfTheTable := by
  intro i s t h
  refine ⟨(effect_of_exec h).enc_error_entry, fun before after => ?_⟩
  obtain ⟨opened, row⟩ := (effect_of_exec h).dec_error_entry before after
  refine ⟨opened, row.imp_left ?_⟩
  rintro ⟨b, rfl, above, rfl⟩
  rw [← latchedMsb_toNat] at above
  exact ⟨b, rfl, above, rfl⟩

end Sys2Proof.Machine
end

section
/-! PROOFS. The phase machine, and what leaves a closed phase (60_exceptions.md R188, R189, R193). -/

namespace Sys2Proof.Machine

/-! ### The phase machine -/

/-- A block whose part of the state stands keeps its phase and its error. -/
theorem phase_err_eq_of_only_eq {b : Block} {s t : State} (h : t.only b = s.only b) :
    t.phase b = s.phase b ∧ t.err b = s.err b := by
  cases b with
  | enc => simp [(only_enc_eq_iff.1 h).2]
  | dec => simp [(only_dec_eq_iff.1 h).2]

theorem clear_phase (b : Block) (s : State) : (clear b s).phase b = .opened := by cases b <;> rfl

theorem clear_err (b : Block) (s : State) : (clear b s).err b = .none := by cases b <;> rfl

theorem clear_only (b : Block) (s : State) : (clear b s).only b = clear b (s.only b) := by cases b <;> rfl

/-- Reset is, to each block, its `CLR` (R34, R200). -/
theorem resetBlocks_only (b : Block) (s : State) : (resetBlocks s).only b = (clear b s).only b := by
  cases b <;> rfl

theorem Effect.eq_clear {i : Instr} {s t : State} (h : Effect s i t) (hi : i.op = .clear) :
    t = clear i.block s := by
  cases h <;> cases hi <;> rfl

/-- In a closed phase a `PUSH` or an `END` is discarded (R188). -/
theorem exec_of_closed {i : Instr} {s : State} (closed : s.phase i.block ≠ .opened)
    (hi : i.op = .push ∨ i.op = .finish) : exec i s = .next s := by
  cases i with
  | encPush v => exact exec_of_effect (.encDiscarded v closed)
  | encEnd => exact exec_of_effect (.encEndDiscarded closed)
  | decPush b => exact exec_of_effect (.decDiscarded b closed)
  | decEnd => exact exec_of_effect (.decEndDiscarded closed)
  | encNop | encClr | decNop | decClr => exact absurd hi (by decide)

theorem Effect.eq_of_closed {i : Instr} {s t : State} (h : Effect s i t) (closed : s.phase i.block ≠ .opened)
    (hi : i.op = .push ∨ i.op = .finish) : t = s :=
  Host.Outcome.next.inj ((exec_of_effect h).symm.trans (exec_of_closed closed hi))

/-- A `PUSH` into an open call leaves it open, or raises an error. -/
theorem Effect.phase_of_push {i : Instr} {s t : State} (h : Effect s i t) (hi : i.op = .push)
    (opened : s.phase i.block = .opened) :
    t.phase i.block = .opened ∨ (t.phase i.block = .err ∧ t.err i.block ≠ .none) := by
  cases h with
  | encDiscarded _ closed | decDiscarded _ closed => exact absurd opened closed
  | encRaised | decRaised => exact .inr ⟨rfl, nofun⟩
  | encAppended | decContinued | decCompleted => exact .inl opened
  | encNop | encEndDiscarded | encDelivered | encCleared => cases hi
  | decNop | decEndDiscarded | decEmpty | decIncomplete | decDelivered | decCleared => cases hi

/-- An `END` of an open call delivers its result; that of `DEC` may raise an error instead. -/
theorem Effect.phase_of_finish {i : Instr} {s t : State} (h : Effect s i t) (hi : i.op = .finish)
    (opened : s.phase i.block = .opened) :
    t.phase i.block = .done ∨ (i.block = .dec ∧ t.phase i.block = .err ∧ t.err i.block ≠ .none) := by
  cases h with
  | encEndDiscarded closed | decEndDiscarded closed => exact absurd opened closed
  | encDelivered | decDelivered => exact .inl rfl
  | decEmpty | decIncomplete => exact .inr ⟨rfl, rfl, nofun⟩
  | encNop | encDiscarded | encRaised | encAppended | encCleared => cases hi
  | decNop | decDiscarded | decRaised | decContinued | decCompleted | decCleared => cases hi

/-- Settles O16, operation by operation; the other block's operations and `NOP` keep the block. -/
theorem phaseMachine : Obligations.PhaseMachine := by
  refine ⟨fun i s t b h => ?_, fun s t b hr h => ?_⟩
  · have e := effect_of_exec h
    refine ⟨fun hb => (phase_err_eq_of_only_eq (e.only_eq fun h => absurd h hb)).1, ?_⟩
    rintro rfl
    refine ⟨fun nop => by rw [e.eq_of_nop nop], e.phase_of_push,
      fun push closed => by rw [e.eq_of_closed closed (.inl push)], e.phase_of_finish,
      fun finish closed => by rw [e.eq_of_closed closed (.inr finish)],
      fun clr => by rw [e.eq_clear clr, clear_phase]⟩
  · obtain ⟨-, rfl⟩ | ⟨hr', -⟩ := step_cases h
    · exact (phase_err_eq_of_only_eq (resetBlocks_only b _)).1.trans (clear_phase b _)
    · exact absurd (hr.symm.trans hr') (by decide)

/-! ### Closed phases -/

/-- No operation but its own `CLR` changes a block in a closed phase (R188). -/
theorem Effect.only_eq_of_closed {b : Block} {i : Instr} {s t : State} (h : Effect s i t)
    (closed : s.phase b ≠ .opened) (hi : i.op ≠ .clear ∨ i.block ≠ b) : t.only b = s.only b := by
  by_cases hb : i.block = b
  · subst hb
    have hclr : i.op ≠ .clear := hi.resolve_right fun hne => hne rfl
    cases hop : i.op with
    | nop => exact h.only_eq fun _ => hop
    | push => rw [h.eq_of_closed closed (.inl hop)]
    | finish => rw [h.eq_of_closed closed (.inr hop)]
    | clear => exact absurd hop hclr
  · exact h.only_eq fun h => absurd h hb

theorem block_of_presented {b : Block} {s : State} {i : Instr} (h : presented b s = .ok i) : i.block = b := by
  cases b with
  | enc => obtain ⟨o, -, rfl⟩ := decode_eq_ok.1 (show decode s.cfg .enc s.cycle.encWord = .ok i from h); simp
  | dec => obtain ⟨o, -, rfl⟩ := decode_eq_ok.1 (show decode s.cfg .dec s.cycle.decWord = .ok i from h); simp

/-- What a step does to one block: reset, or the operation presented at its port, on the block as it was. -/
theorem step_cases_of_block {s t : State} (h : step s = .next t) (b : Block) :
    (s.cycle.rst = true ∧ t.only b = (clear b s).only b) ∨
    ∃ i u v, presented b s = .ok i ∧ Effect u i v ∧ u.only b = s.only b ∧ t.only b = v.only b := by
  obtain ⟨hr, rfl⟩ | ⟨-, -, i, j, u, hi, hj, hiu, hjt⟩ := step_cases h
  · refine .inl ⟨hr, (resetBlocks_only b _).trans ?_⟩
    rw [clear_only, clear_only]
    cases b <;> rfl
  · have ei := effect_of_exec hiu
    have ej := effect_of_exec hjt
    cases b with
    | enc => exact .inr ⟨i, s.advance, u, hi, ei, rfl, ej.only_eq fun hb => by simp [block_of_presented hj] at hb⟩
    | dec => exact .inr ⟨j, u, t, hj, ej, ei.only_eq fun hb => by simp [block_of_presented hi] at hb, rfl⟩

/-- A step that changes the phase of a closed block is a reset or its `CLR`, and leaves the block cleared (R188). -/
theorem only_eq_clear_of_phase_ne {s t : State} {b : Block} (closed : s.phase b ≠ .opened)
    (h : step s = .next t) (hne : t.phase b ≠ s.phase b) :
    t.only b = (clear b s).only b ∧
      (s.cycle.rst = true ∨ ∃ i, i.op = .clear ∧ presented b s = .ok i) := by
  obtain ⟨hr, ht⟩ | ⟨i, u, v, hi, e, hu, ht⟩ := step_cases_of_block h b
  · exact ⟨ht, .inl hr⟩
  · obtain rfl := block_of_presented hi
    have huphase := (phase_err_eq_of_only_eq hu).1
    by_cases hclr : i.op = .clear
    · refine ⟨?_, .inr ⟨i, hclr, hi⟩⟩
      rw [ht, e.eq_clear hclr, clear_only, hu, ← clear_only]
    · have kept := e.only_eq_of_closed (huphase ▸ closed) (.inl hclr)
      exact absurd (phase_err_eq_of_only_eq (ht.trans (kept.trans hu))).1 hne

/-- Settles O17: in a closed phase a `PUSH` or an `END` is discarded, and a block that a step takes out of one is
cleared. -/
theorem closedPhasesAreSticky : Obligations.ClosedPhasesAreSticky := by
  refine ⟨fun i s closed hi => exec_of_closed closed hi, fun s t b closed h hne => ?_⟩
  obtain ⟨ht, cause⟩ := only_eq_clear_of_phase_ne closed h hne
  obtain ⟨hphase, herr⟩ := phase_err_eq_of_only_eq ht
  refine ⟨hphase.trans (clear_phase b s), herr.trans (clear_err b s), ?_, ?_, cause⟩
  · rintro rfl
    exact (only_enc_eq_iff.1 ht).2
  · rintro rfl
    exact (only_dec_eq_iff.1 ht).2

/-- R35: where the invariant holds, an error stands in phase `ERR` alone. -/
theorem State.Inv.phase_eq_err_iff {s : State} (inv : s.Inv) (b : Block) : s.phase b = .err ↔ s.err b ≠ .none := by
  cases b with
  | enc => exact inv.enc.err.1
  | dec => exact inv.dec.err.1

/-- Settles O18: by the invariant the block is in phase `ERR`, where only its `CLR` changes it. -/
theorem errorIsWrittenOncePerCall : Obligations.ErrorIsWrittenOncePerCall := by
  intro i s t b inv h herr hi
  have inErr : s.phase b = .err := (inv.phase_eq_err_iff b).2 herr
  have kept := (effect_of_exec h).only_eq_of_closed (by simp [inErr]) hi
  obtain ⟨hphase, herr'⟩ := phase_err_eq_of_only_eq kept
  exact ⟨herr', hphase.trans inErr⟩

end Sys2Proof.Machine
end

section
/-! PROOFS. How a call ends (60_exceptions.md R187). -/

namespace Sys2Proof.Machine

/-- After its `END` a block is not in phase `OPEN`. -/
theorem Effect.closed_of_finish {i : Instr} {s t : State} (h : Effect s i t) (hi : i.op = .finish) :
    t.phase i.block ≠ .opened := by
  by_cases opened : s.phase i.block = .opened
  · obtain done | ⟨-, err, -⟩ := h.phase_of_finish hi opened
    · simp [done]
    · simp [err]
  · rwa [h.eq_of_closed opened (.inr hi)]

theorem closed_of_runOps_finish {ops : List Instr} {i : Instr} {s t : State} (hi : i.op = .finish)
    (h : runOps (ops ++ [i]) s = .next t) : t.phase i.block ≠ .opened := by
  rw [runOps_append] at h
  obtain ⟨u, -, hu⟩ := andThen_eq_next.1 h
  exact (effect_of_exec ((andThen_next_right _).symm.trans hu)).closed_of_finish hi

theorem runOps_enc_inv {ops : List Instr} {s t : State} (h : runOps ops s = .next t) (inv : s.enc.Inv) :
    t.enc.Inv :=
  runOps_keeps (P := fun u => u.enc.Inv) (fun _ _ _ _ hx => (effect_of_exec hx).enc_inv) h inv

/-- A closed phase of a block that meets R35, as its status outputs and its read port show it (R29, R54, R55). -/
theorem readPort_all_or_nothing {n : Nat} {p : Phase} {e : ErrKind} (buf : List (BitVec n)) (closed : p ≠ .opened)
    (herr : p = .err ↔ e ≠ .none) :
    (p = .done ∧ e = .none ∧ lenOutput p buf.length = buf.length ∧
      ∀ k < buf.length, (readPort n p buf k).valid = true) ∨
    (p = .err ∧ e ≠ .none ∧ lenOutput p buf.length = 0 ∧
      ∀ k, readPort n p buf k = { valid := false, data := 0 }) := by
  cases p with
  | opened => exact absurd rfl closed
  | done =>
    have none : e = .none := by simpa using herr
    exact .inl ⟨rfl, none, rfl, fun k hk => by rw [readPort_done n k buf hk]⟩
  | err => exact .inr ⟨rfl, herr.1 rfl, rfl, fun k => readPort_of_not_delivered n k (.inl nofun)⟩

/-- Settles O49: `CLR` gives the block its invariant, the operations keep it, and `END` closes the call. -/
theorem callsEndAllOrNothing : Obligations.CallsEndAllOrNothing := by
  refine ⟨fun s t xs h => ?_, fun s t bs h => ?_⟩
  · have inv : t.enc.Inv := runOps_enc_inv (s := clear .enc s) h Enc.reset_inv
    exact readPort_all_or_nothing t.enc.obuf (closed_of_runOps_finish (s := clear .enc s) (i := .encEnd) rfl h)
      inv.err.1
  · have inv := runOps_dec_inv (s := clear .dec s) h (Dec.reset_inv _)
    exact readPort_all_or_nothing t.dec.rbuf (closed_of_runOps_finish (s := clear .dec s) (i := .decEnd) rfl h)
      inv.err.1

end Sys2Proof.Machine
end

section
/-! PROOFS. Reset, and a call without its `END` (70_reset_and_hazards.md R200, R208). -/

namespace Sys2Proof.Machine

/-! ### Without `END` -/

/-- A block that is not in phase `DONE`, as its `len` output and its read port show it (R29, R54, R55). -/
theorem outputs_of_ne_done {n : Nat} {p : Phase} (h : p ≠ .done) (buf : List (BitVec n)) :
    lenOutput p buf.length = 0 ∧ ∀ k, (readPort n p buf k).valid = false :=
  ⟨lenOutput_of_ne_done h _, fun k => by rw [readPort_of_not_delivered n k (.inl h)]⟩

/-- Only `ENC.END` brings `ENC` into phase `DONE`. -/
theorem Effect.enc_phase_ne_done {i : Instr} {s t : State} (h : Effect s i t) (hi : i ≠ .encEnd)
    (before : s.enc.phase ≠ .done) : t.enc.phase ≠ .done := by
  cases h with
  | encEndDiscarded | encDelivered => exact absurd rfl hi
  | encRaised | encCleared => exact nofun
  | encNop | encDiscarded | encAppended => exact before
  | decNop | decDiscarded | decRaised | decContinued | decCompleted | decEndDiscarded | decEmpty | decIncomplete
  | decDelivered | decCleared => exact before

/-- `DEC` shows nothing that only `DEC.END` can bring about: a delivered result, or an error that `END` raises (R128,
R184). -/
structure Dec.Unfinished (d : Dec) : Prop where
  phase_ne_done : d.phase ≠ .done
  err_ne_argument : d.err ≠ .argument
  err_ne_incomplete : d.err ≠ .incomplete

theorem Dec.unfinished_of_opened {d : Dec} (opened : d.phase = .opened) (noError : d.err = .none) : d.Unfinished :=
  ⟨by simp [opened], by simp [noError], by simp [noError]⟩

/-- Every operation but `DEC.END` keeps `DEC` unfinished. -/
theorem Effect.dec_unfinished {i : Instr} {s t : State} (h : Effect s i t) (hi : i ≠ .decEnd)
    (before : s.dec.Unfinished) : t.dec.Unfinished := by
  obtain ⟨hphase, hargument, hincomplete⟩ := before
  cases h with
  | decEndDiscarded | decEmpty | decIncomplete | decDelivered => exact absurd rfl hi
  | decRaised | decCleared => exact ⟨nofun, nofun, nofun⟩
  | decNop | decDiscarded | decContinued | decCompleted => exact ⟨hphase, hargument, hincomplete⟩
  | encNop | encDiscarded | encRaised | encAppended | encEndDiscarded | encDelivered | encCleared =>
    exact ⟨hphase, hargument, hincomplete⟩

theorem runOps_enc_phase_ne_done {ops : List Instr} {s t : State} (h : runOps ops s = .next t)
    (noEnd : .encEnd ∉ ops) (before : s.enc.phase ≠ .done) : t.enc.phase ≠ .done :=
  runOps_keeps (P := fun u => u.enc.phase ≠ .done)
    (fun _ hi _ _ hx => (effect_of_exec hx).enc_phase_ne_done (ne_of_mem_of_not_mem hi noEnd)) h before

theorem runOps_dec_unfinished {ops : List Instr} {s t : State} (h : runOps ops s = .next t)
    (noEnd : .decEnd ∉ ops) (before : s.dec.Unfinished) : t.dec.Unfinished :=
  runOps_keeps (P := fun u => u.dec.Unfinished)
    (fun _ hi _ _ hx => (effect_of_exec hx).dec_unfinished (ne_of_mem_of_not_mem hi noEnd)) h before

/-- Settles O50: an open block has not finished its call, and only its `END` could change that. -/
theorem withoutEndNothingIsDelivered : Obligations.WithoutEndNothingIsDelivered := by
  refine fun s t ops h => ⟨fun opened noEnd => ?_, fun opened noError noEnd => ?_⟩
  · exact outputs_of_ne_done (runOps_enc_phase_ne_done h noEnd (by simp [opened])) t.enc.obuf
  · obtain ⟨hphase, hargument, hincomplete⟩ :=
      runOps_dec_unfinished h noEnd (Dec.unfinished_of_opened opened noError)
    obtain ⟨hlen, hread⟩ := outputs_of_ne_done hphase t.dec.rbuf
    exact ⟨hlen, hread, hargument, hincomplete⟩

/-! ### Reset -/

/-- In a cycle with `rst` = 1 the ports are not read (R200). -/
theorem step_of_rst {s : State} (hr : s.cycle.rst = true) : step s = .next (resetBlocks s.advance) := if_pos hr

/-- Settles O7: the table of R34 is what reset writes into both blocks. -/
theorem resetWinsOverPresentedOperations : Obligations.ResetWinsOverPresentedOperations :=
  fun _ hr => step_of_rst hr

end Sys2Proof.Machine
end
